-- ==== Sys2Proof/Config.lean ====
section
/-! DEFINITION. What is fixed outside the block and what the spec leaves free. The free values have no body: nothing can be
proved of them, so a statement that holds, holds whatever they are. The other parameters of 00_scope.md R9 are arguments:
`DEBUG_PAIRING_CHECK` is a field of State that no step writes, `N_CALLERS` the number of lists given to the launch. -/

namespace Sys2Proof.Config

/-- DESIGN CHOICE (log 5), safe. The n-th boolean draw of a run: the answer of `is_multiple_of` with m = 0, "a fresh,
unconstrained boolean draw for each such request" (44_divisibility.md R182). A free value. -/
opaque drawBool : Nat → Bool

/-- DESIGN CHOICE (log 3), safe. The n-th free choice of the order of service, where several callers have a request ready
and the host fixed none: "Requests of different callers interleave in any order" (20_memory.md R45). A free value. -/
opaque pick : Nat → Nat

/-- The open parameter `HOST_BYTE_ORDER` (00_scope.md R9, 20_memory.md R43). No rule of the block reads it; the host-side
functions of Machine/HostBytes.lean take it as an argument. -/
inductive ByteOrder where
  | little
  | big
deriving DecidableEq, Repr

end Sys2Proof.Config
end

