-- ==== Sys2Proof/Word.lean ====
section
/-! DEFINITION. The words of fastdiv CORE: the two tracks and their word width, the bus types (00_scope.md R2, R9;
30_encoding.md R60, R63). Every value is unsigned, bit 0 the least significant (00_scope.md R10). -/

namespace Sys2Proof

/-- A byte, of a bus value a host serialises (20_memory.md R43). -/
abbrev Byte := BitVec 8

/-- A track: one instantiation of the algorithm at one word width (00_scope.md R2). -/
inductive Track where
  /-- The 32-bit track, W = 0 (30_encoding.md R63). -/
  | u32
  /-- The 64-bit track, W = 1 (30_encoding.md R63). -/
  | u64
deriving DecidableEq, Repr

/-- The word width w of a track (00_scope.md R2, R9). -/
def Track.width : Track → Nat
  | .u32 => 32
  | .u64 => 64

end Sys2Proof
end

