-- ==== Sys2Proof/Syntax.lean ====
section
/-! DEFINITION. The requests of fastdiv CORE as syntax: the typed term (30_encoding.md R76), the bus tuple (R60), the
mnemonics (00_scope.md R3) and the lines of a caller's request list (30_encoding.md R73). -/

namespace Sys2Proof

/-- A request as a typed term, one constructor per mnemonic, each field of its operand's width (30_encoding.md R76, with
the widths of R65 and the operand order of R73). A cross-track value is a type error here, so EVERY term is well formed. -/
inductive Instr where
  /-- `mulhi.u32 x, y` (40_multiply_high.md R103). -/
  | mulhi32 (x : BitVec 64) (y : BitVec 32)
  /-- `precompute.u32 d` (41_magic_constant.md R122). -/
  | precompute32 (d : BitVec 32)
  /-- `fast_div.u32 a, m` (42_quotient.md R140). -/
  | fastDiv32 (a : BitVec 32) (m : BitVec 64)
  /-- `fast_mod.u32 a, m, d` (43_remainder.md R161). -/
  | fastMod32 (a : BitVec 32) (m : BitVec 64) (d : BitVec 32)
  /-- `is_multiple_of.u32 n, m` (44_divisibility.md R180). -/
  | isMultipleOf32 (n : BitVec 32) (m : BitVec 64)
  /-- `mulhi.u64 x, y` (40_multiply_high.md R104). -/
  | mulhi64 (x : BitVec 128) (y : BitVec 64)
  /-- `precompute.u64 d` (41_magic_constant.md R123). -/
  | precompute64 (d : BitVec 64)
  /-- `fast_div.u64 a, m` (42_quotient.md R141). -/
  | fastDiv64 (a : BitVec 64) (m : BitVec 128)
  /-- `fast_mod.u64 a, m, d` (43_remainder.md R162). -/
  | fastMod64 (a : BitVec 64) (m : BitVec 128) (d : BitVec 64)
  /-- `is_multiple_of.u64 n, m` (44_divisibility.md R181). -/
  | isMultipleOf64 (n : BitVec 64) (m : BitVec 128)
deriving DecidableEq, Repr

/-- The five units of a track (30_encoding.md R62). -/
inductive Func where
  | mulhi
  | precompute
  | fastDiv
  | fastMod
  | isMultipleOf
deriving DecidableEq, Repr

/-- A mnemonic `op.track` (30_encoding.md R73): a unit of a track. -/
structure Op where
  func : Func
  track : Track
deriving DecidableEq, Repr

/-- The operand buses (30_encoding.md R60). -/
inductive Bus where
  | x
  | y
  | z
deriving DecidableEq, Repr

/-- A request as it stands on the buses, the tuple (CMD, X, Y, Z) of 30_encoding.md R60. -/
structure Request where
  cmd : BitVec 8
  x : BitVec 128
  y : BitVec 64
  z : BitVec 64
deriving DecidableEq, Repr

/-- Why a bus tuple is not a well-formed request (30_encoding.md R66, R69; 60_exceptions.md R206). -/
inductive Reject where
  /-- The command word is reserved (30_encoding.md R69). -/
  | reservedCmd
  /-- A bus bit the operation does not read is not 0 (30_encoding.md R66). -/
  | operandBits
deriving DecidableEq, Repr

/-- The name of a host variable (`ident` of 30_encoding.md R73). -/
abbrev Ident := List Char

/-- An operand of a line: a literal, an unsigned integer of any size, or a host variable (30_encoding.md R73). -/
inductive Arg where
  | lit (n : Nat)
  | var (name : Ident)
deriving DecidableEq, Repr

/-- What a line asks for: a mnemonic with its operands (30_encoding.md R73), or a request given directly as its bus tuple
(R60; the raw request of 95_test_vectors.md P7). -/
inductive Body where
  | call (op : Op) (args : List Arg)
  | raw (request : Request)
deriving DecidableEq, Repr

/-- One line of a caller's request list; `dest` names the host variable that receives the response, and a line without one
discards it (30_encoding.md R73). -/
structure Line where
  dest : Option Ident
  body : Body
deriving DecidableEq, Repr

/-- A caller's request list `prog_c` (10_state.md R29). -/
abbrev Program := List Line

end Sys2Proof
end

