-- ==== Sys2Proof/Decode.lean ====
section
/-! DEFINITION. Decoding a request and, after it, encoding one (30_encoding.md R60 to R72). Decoding is total on every bus
tuple and rejects by name. The tables of the request set (what each operation reads, which operand fills which bus) stand
here too. -/

namespace Sys2Proof

/-! ## The command word -/

/-- FUNC, bits [2:0] of a command word (30_encoding.md R61, R62); 101, 110 and 111 are reserved (R69). -/
def funcOfBits (f : BitVec 3) : Option Func :=
  match f.toNat with
  | 0 => some .mulhi
  | 1 => some .precompute
  | 2 => some .fastDiv
  | 3 => some .fastMod
  | 4 => some .isMultipleOf
  | _ => none

/-- W, bit [3] of a command word (30_encoding.md R63). -/
def trackOfBit (b : Bool) : Track :=
  if b then .u64 else .u32

/-- The decoder of 30_encoding.md R70: total on the 256 command words, `none` for the 246 reserved ones (R69). -/
def decodeCommand (cmd : BitVec 8) : Option Op :=
  if cmd.extractLsb' 4 4 = 0#4 then
    (funcOfBits (cmd.extractLsb' 0 3)).map fun f => ⟨f, trackOfBit (cmd.getLsbD 3)⟩
  else none

/-- FUNC of a unit (30_encoding.md R62). -/
def Func.bits : Func → BitVec 3
  | .mulhi => 0#3
  | .precompute => 1#3
  | .fastDiv => 2#3
  | .fastMod => 3#3
  | .isMultipleOf => 4#3

/-- W of a track (30_encoding.md R63). -/
def Track.bit : Track → BitVec 1
  | .u32 => 0#1
  | .u64 => 1#1

/-- The command word of a mnemonic: RSV = 0000, W, FUNC (30_encoding.md R61, R72, R74). -/
def Op.command (op : Op) : BitVec 8 :=
  0#4 ++ op.track.bit ++ op.func.bits

/-! ## The buses an operation reads -/

/-- The width of an operand on a bus: X carries the 2w-bit operand, Y and Z w-bit ones (30_encoding.md R64). -/
def Bus.width (t : Track) : Bus → Nat
  | .x => 2 * t.width
  | .y => t.width
  | .z => t.width

/-- The buses an operation's operands fill, in the operand order of the assembler syntax (30_encoding.md R65, R73). -/
def Func.slots : Func → List Bus
  | .mulhi => [.x, .y]
  | .precompute => [.y]
  | .fastDiv => [.y, .x]
  | .fastMod => [.y, .x, .z]
  | .isMultipleOf => [.y, .x]

/-- How many low bits of a bus an operation reads, 0 of an unused one (30_encoding.md R65). -/
def Op.readWidth (op : Op) (b : Bus) : Nat :=
  if op.func.slots.contains b then b.width op.track else 0

/-- Every bus bit the operation does not read is 0 (30_encoding.md R66). -/
def Request.unreadBitsZero (r : Request) (op : Op) : Bool :=
  decide (r.x.toNat < 2 ^ op.readWidth .x)
    && decide (r.y.toNat < 2 ^ op.readWidth .y)
    && decide (r.z.toNat < 2 ^ op.readWidth .z)

/-- The typed term of an operation on the operands its buses carry: each operand is the low bits of its bus, unsigned
(30_encoding.md R64, R65, R67). -/
def Request.operandsOf (r : Request) (op : Op) : Instr :=
  match op.func, op.track with
  | .mulhi, .u32 => .mulhi32 (r.x.setWidth 64) (r.y.setWidth 32)
  | .precompute, .u32 => .precompute32 (r.y.setWidth 32)
  | .fastDiv, .u32 => .fastDiv32 (r.y.setWidth 32) (r.x.setWidth 64)
  | .fastMod, .u32 => .fastMod32 (r.y.setWidth 32) (r.x.setWidth 64) (r.z.setWidth 32)
  | .isMultipleOf, .u32 => .isMultipleOf32 (r.y.setWidth 32) (r.x.setWidth 64)
  | .mulhi, .u64 => .mulhi64 r.x r.y
  | .precompute, .u64 => .precompute64 r.y
  | .fastDiv, .u64 => .fastDiv64 r.y r.x
  | .fastMod, .u64 => .fastMod64 r.y r.x r.z
  | .isMultipleOf, .u64 => .isMultipleOf64 r.y r.x

/-- The decoder of a whole request: the command word first (30_encoding.md R70), then the bus bits (R66; the order is that
of 60_exceptions.md R207). -/
def decode (r : Request) : Except Reject Instr :=
  match decodeCommand r.cmd with
  | none => .error .reservedCmd
  | some op => if r.unreadBitsZero op then .ok (r.operandsOf op) else .error .operandBits

/-! ## The encoder -/

/-- The bus tuple of a typed term, with the command words of 30_encoding.md R72 and the placement of R65. -/
def encode : Instr → Request
  | .mulhi32 x y => ⟨0x00#8, x.setWidth 128, y.setWidth 64, 0#64⟩
  | .precompute32 d => ⟨0x01#8, 0#128, d.setWidth 64, 0#64⟩
  | .fastDiv32 a m => ⟨0x02#8, m.setWidth 128, a.setWidth 64, 0#64⟩
  | .fastMod32 a m d => ⟨0x03#8, m.setWidth 128, a.setWidth 64, d.setWidth 64⟩
  | .isMultipleOf32 n m => ⟨0x04#8, m.setWidth 128, n.setWidth 64, 0#64⟩
  | .mulhi64 x y => ⟨0x08#8, x, y, 0#64⟩
  | .precompute64 d => ⟨0x09#8, 0#128, d, 0#64⟩
  | .fastDiv64 a m => ⟨0x0A#8, m, a, 0#64⟩
  | .fastMod64 a m d => ⟨0x0B#8, m, a, d⟩
  | .isMultipleOf64 n m => ⟨0x0C#8, m, n, 0#64⟩

/-- The unit and track a typed term names (30_encoding.md R72). -/
def Instr.op : Instr → Op
  | .mulhi32 _ _ => ⟨.mulhi, .u32⟩
  | .precompute32 _ => ⟨.precompute, .u32⟩
  | .fastDiv32 _ _ => ⟨.fastDiv, .u32⟩
  | .fastMod32 _ _ _ => ⟨.fastMod, .u32⟩
  | .isMultipleOf32 _ _ => ⟨.isMultipleOf, .u32⟩
  | .mulhi64 _ _ => ⟨.mulhi, .u64⟩
  | .precompute64 _ => ⟨.precompute, .u64⟩
  | .fastDiv64 _ _ => ⟨.fastDiv, .u64⟩
  | .fastMod64 _ _ _ => ⟨.fastMod, .u64⟩
  | .isMultipleOf64 _ _ => ⟨.isMultipleOf, .u64⟩

/-! ## A request as one number -/

/-- A request from its 264 bits (30_encoding.md R71). DESIGN CHOICE (log 10), safe: CMD is bits [7:0], as the opcode table
numbers them, and X, Y, Z follow in the order of R60. Bits above the 264 are not part of a request. -/
def Request.ofNat (w : Nat) : Request where
  cmd := BitVec.ofNat 8 w
  x := BitVec.ofNat 128 (w / 2 ^ 8)
  y := BitVec.ofNat 64 (w / 2 ^ 136)
  z := BitVec.ofNat 64 (w / 2 ^ 200)

/-- The 264 bits of a request, laid out as `Request.ofNat` reads them. -/
def Request.toNat (r : Request) : Nat :=
  r.cmd.toNat + 2 ^ 8 * r.x.toNat + 2 ^ 136 * r.y.toNat + 2 ^ 200 * r.z.toNat

/-- The request the opcode table's word stands for: the low `nbits` bits are given, every bit above them is 0. -/
def tableRequest (nbits w : Nat) : Request :=
  Request.ofNat (w % 2 ^ nbits)

/-- The instruction the decoder reads from a request whose bits are `w`, numbered as spec/opcode_table.json numbers them;
the table gives the 8 bits of CMD, so the buses are zeros. -/
def decodeTableWord (nbits w : Nat) : Option Instr :=
  match decode (tableRequest nbits w) with
  | .ok i => some i
  | .error _ => none

end Sys2Proof
end

