-- ==== Sys2Proof/Machine/Arith.lean ====
section
/-! DEFINITION. The three helper functions of the spec (00_scope.md R13), on unbounded natural numbers with every reduction
written out (00_scope.md R11), and the datapaths the source describes for the first of them (40_multiply_high.md R105,
R106), which no instruction uses. -/

namespace Sys2Proof.Machine

/-- `MULHI_w(x, y)` (40_multiply_high.md R100, 90_conflicts.md C1). -/
def mulhi (w x y : Nat) : Nat :=
  x * y / 2 ^ (2 * w)

/-- `GEN_w(d)`, for a valid d (41_magic_constant.md R120, 90_conflicts.md C5). -/
def gen (w d : Nat) : Nat :=
  (2 ^ (2 * w) - 1) / d + 1

/-- `LOWPROD_w(m, a)` (43_remainder.md R160, 90_conflicts.md C2 and C3). -/
def lowprod (w m a : Nat) : Nat :=
  m * a % 2 ^ (2 * w)

/-- The 32-bit datapath: widen to 128 bits, multiply, shift right by 64 (40_multiply_high.md R105). -/
def mulhiWide32 (x : BitVec 64) (y : BitVec 32) : BitVec 32 :=
  ((x.setWidth 128 * y.setWidth 128) >>> 64).setWidth 32

/-- The low w-bit limb of a 128-bit value (20_memory.md R42). -/
def limbLow (v : BitVec 128) : BitVec 64 :=
  v.extractLsb' 0 64

/-- The high w-bit limb of a 128-bit value (20_memory.md R42). -/
def limbHigh (v : BitVec 128) : BitVec 64 :=
  v.extractLsb' 64 64

/-- The sum of the upper partial product and the carry of the lower one in the 64-bit datapath, the `s` of
40_multiply_high.md R106, in 128 bits. -/
def limbSum64 (x : BitVec 128) (y : BitVec 64) : BitVec 128 :=
  (limbHigh x).setWidth 128 * y.setWidth 128 + ((limbLow x).setWidth 128 * y.setWidth 128) >>> 64

/-- The 64-bit datapath: schoolbook limb multiplication (40_multiply_high.md R106, 90_conflicts.md C8). -/
def mulhiLimbs64 (x : BitVec 128) (y : BitVec 64) : BitVec 64 :=
  (limbSum64 x y >>> 64).setWidth 64

end Sys2Proof.Machine
end

