-- ==== Sys2Proof/Machine/Flags.lean ====
section
/-! DEFINITION. The block has no flags, and no request writes one (10_state.md R23). What other hardware would put into a
flag is here a response: the boolean of the divisibility tester, with its place on the result bus. -/

namespace Sys2Proof.Machine

/-- A boolean on the result bus: R[0], with R[127:1] = 0 (30_encoding.md R68). -/
def boolBus (t : Bool) : BitVec 128 :=
  if t then 1#128 else 0#128

/-- The divisibility test for m other than 0 (44_divisibility.md R180, R181). -/
def divides (w m n : Nat) : Bool :=
  decide (lowprod w m n ≤ m - 1)

end Sys2Proof.Machine
end

