-- ==== Sys2Proof/Machine/State.lean ====
section
/-! DEFINITION. The state of fastdiv CORE and of its callers, as plain data, and the state right after reset (10_state.md,
70_reset_and_hazards.md R240, R242). The block has no register, pc, flag or memory (10_state.md R21 to R26; log 6). -/

namespace Sys2Proof.Machine

/-- The fault codes 1 and 2 (60_exceptions.md R200). -/
inductive FaultCode where
  /-- Code 1, `DIVISOR_LE_1`: `precompute` with d = 0 or d = 1. -/
  | divisorLe1
  /-- Code 2, `PAIRING_MISMATCH`: the pairing check of a debug build failed (43_remainder.md R167). -/
  | pairingMismatch
deriving DecidableEq, Repr

/-- The fault record while VALID = 1: CODE and W of FAULT_STATUS, DIVISOR of FAULT_INFO (10_state.md R24, R31). -/
structure FaultRecord where
  code : FaultCode
  track : Track
  divisor : BitVec 64
deriving DecidableEq, Repr

/-- A response as its caller holds it: a w-bit word, a 2w-bit precomputed value, or a boolean (30_encoding.md R73, R76). -/
inductive Value where
  | word32 (v : BitVec 32)
  | word64 (v : BitVec 64)
  | precomputed32 (m : BitVec 64)
  | precomputed64 (m : BitVec 128)
  | boolean (b : Bool)
deriving DecidableEq, Repr

/-- The kind of a response, which its operation fixes (30_encoding.md R65). -/
inductive Kind where
  | word (t : Track)
  | precomputed (t : Track)
  | boolean
deriving DecidableEq, Repr

/-- The host variables of a caller: the written ones, each name at most once (10_state.md R29). -/
abbrev Vars := List (Ident × Value)

/-- What a caller holds (10_state.md R29): its request list, the index of its next request, its host variables. -/
structure Caller where
  prog : Program
  pos : Nat
  vars : Vars
deriving DecidableEq, Repr

/-- The whole state. -/
structure State where
  /-- The fault record; `none` is VALID = 0 (10_state.md R24, R31). -/
  fault : Option FaultRecord
  /-- The result bus R while a response is on it: between steps it holds nothing (10_state.md R30; log 2). -/
  bus : Option (BitVec 128)
  /-- The callers, `N_CALLERS` of them (10_state.md R29, 20_memory.md R45). -/
  callers : List Caller
  /-- The build parameter `DEBUG_PAIRING_CHECK` (00_scope.md R9, 43_remainder.md R167; log 4). -/
  pairingCheck : Bool
  /-- The model's own: how many boolean draws were made (44_divisibility.md R182; log 5). -/
  draws : Nat
  /-- The model's own: choices of the order of service fixed beforehand, next one first (20_memory.md R45; log 3). -/
  grants : List Nat
  /-- The model's own: how many free choices of the order of service were made (20_memory.md R45; log 3). -/
  picks : Nat
deriving DecidableEq, Repr

/-- Why a step does not happen although nothing is refused. DEDUCED (log 12): a stopped block and a final launch have no next
step. -/
inductive Fault where
  /-- Raised by every instruction and by the step while FAULT_STATUS.VALID = 1: the block is stopped for every caller
  (60_exceptions.md R202). Safe: the hardware performs nothing there either. -/
  | blockStopped
  /-- Raised by the step when every caller has performed its whole list and no fault is recorded: the launch is final and
  has no next step (70_reset_and_hazards.md R250). Safe: the hardware performs nothing there either. -/
  | launchFinal
deriving DecidableEq, Repr

/-- Why a program has no run. -/
inductive Refusal where
  /-- Raised only by an arm of `exec` whose instruction has no meaning yet. Safe. -/
  | notModelled (mnemonic : String)
  /-- `RESERVED_CMD`, raised by the launch and the step: a request has a reserved command word (30_encoding.md R69,
  60_exceptions.md R206). Safe: the spec refuses the program. -/
  | reservedCmd
  /-- `OPERAND_BITS`, raised by the launch and the step: a bus bit the operation does not read is not 0 (30_encoding.md
  R66, 60_exceptions.md R206). Safe: the spec refuses the program. -/
  | operandBits
  /-- `ILL_FORMED`, raised by the launch and the step: an unassigned host variable, or an operand that does not fit
  (30_encoding.md R77, 60_exceptions.md R206). Safe: the spec refuses the program. -/
  | illFormed
  /-- Raised by the launch, the step and the assembler: the text or the line is none the grammar of 30_encoding.md R73 can
  spell, so it is no program. Safe: it has no run. -/
  | notInGrammar
  /-- Raised by the launch when it is given no request list: `N_CALLERS` is at least 1 (00_scope.md R9; log 1). Safe. -/
  | noCaller
deriving DecidableEq, Repr

/-- The state right after reset: no fault recorded (70_reset_and_hazards.md R240), nothing on the result bus (10_state.md
R30), the default build (00_scope.md R9), no request list loaded (log 1). The model's own fields start at 0 and empty
(DESIGN CHOICE, logs 3 and 5). -/
def State.reset : State where
  fault := none
  bus := none
  callers := []
  pairingCheck := false
  draws := 0
  grants := []
  picks := 0

end Sys2Proof.Machine
end

