-- ==== Sys2Proof/Machine/Ops.lean ====
section
/-! DEFINITION. The named operations over the state: answering a request, raising a fault, the views of the fault record,
the callers' positions and variables, the order of service, the delivery of a response. -/

namespace Sys2Proof.Machine

/-! ## What the block does with a request -/

/-- `R <- v`: the response stands on the result bus, zero-extended to 128 bits (00_scope.md R12, 30_encoding.md R68). -/
def State.respond (s : State) (v : Nat) : State :=
  { s with bus := some (BitVec.ofNat 128 v) }

/-- `raise Fault(code, info)`, the fault entry (60_exceptions.md R201): the record is written, no response is returned, and
nothing else changes. `d` is the zero-extended d operand. -/
def State.raiseFault (s : State) (code : FaultCode) (t : Track) (d : BitVec 64) : State :=
  { s with fault := some ⟨code, t, d⟩, bus := none }

/-- `R <- zext_128(t ? 1 : 0)` for t from `draw_bool()` (00_scope.md R12, 44_divisibility.md R182). A free value. -/
def State.respondDraw (s : State) : State :=
  { s with bus := some (boolBus (Config.drawBool s.draws)), draws := s.draws + 1 }

/-- `R <- zext_128(t ? 1 : 0)` (30_encoding.md R68). -/
def State.respondBool (s : State) (t : Bool) : State :=
  { s with bus := some (boolBus t) }

/-- No request is performed while a fault is recorded (60_exceptions.md R202); otherwise `next` is what the request does. -/
def State.whenRunning (s : State) (next : State) : Host.Outcome State Fault Refusal :=
  match s.fault with
  | some _ => .fault .blockStopped
  | none => .next next

/-! ## The fault registers as software reads them -/

/-- The number of a fault code (60_exceptions.md R200). -/
def FaultCode.number : FaultCode → BitVec 8
  | .divisorLe1 => 1#8
  | .pairingMismatch => 2#8

/-- FAULT_STATUS (10_state.md R24): CODE in [15:8], zeros in [7:2], W in [1], VALID in [0]. -/
def State.faultStatus (s : State) : BitVec 16 :=
  match s.fault with
  | none => 0#16
  | some r => r.code.number ++ 0#6 ++ r.track.bit ++ 1#1

/-- FAULT_INFO (10_state.md R24): DIVISOR. -/
def State.faultInfo (s : State) : BitVec 64 :=
  match s.fault with
  | none => 0#64
  | some r => r.divisor

/-! ## Responses as host variables -/

/-- The kind of the response of an operation (30_encoding.md R65). -/
def opKind (op : Op) : Kind :=
  match op.func with
  | .mulhi => .word op.track
  | .precompute => .precomputed op.track
  | .fastDiv => .word op.track
  | .fastMod => .word op.track
  | .isMultipleOf => .boolean

/-- The width k of a response (30_encoding.md R65, R68). -/
def Kind.width : Kind → Nat
  | .word t => t.width
  | .precomputed t => 2 * t.width
  | .boolean => 1

/-- The response a caller takes from the result bus: the k bits of its kind (30_encoding.md R68, R73). -/
def Kind.ofBus (k : Kind) (r : BitVec 128) : Value :=
  match k with
  | .word .u32 => .word32 (r.setWidth 32)
  | .word .u64 => .word64 (r.setWidth 64)
  | .precomputed .u32 => .precomputed32 (r.setWidth 64)
  | .precomputed .u64 => .precomputed64 r
  | .boolean => .boolean (r.getLsbD 0)

/-- The kind of a value. -/
def Value.kind : Value → Kind
  | .word32 _ => .word .u32
  | .word64 _ => .word .u64
  | .precomputed32 _ => .precomputed .u32
  | .precomputed64 _ => .precomputed .u64
  | .boolean _ => .boolean

/-- A host variable as an operand: its value as an unsigned integer, a boolean as 0 or 1 (30_encoding.md R77). -/
def Value.toNat : Value → Nat
  | .word32 v => v.toNat
  | .word64 v => v.toNat
  | .precomputed32 m => m.toNat
  | .precomputed64 m => m.toNat
  | .boolean b => b.toNat

/-- Write `v` under a name: the entry of that name is replaced, or a new one is added at the end. DEDUCED (log 11), unsafe: that a
second assignment replaces the first. -/
def setName {α : Type} (name : Ident) (v : α) : List (Ident × α) → List (Ident × α)
  | [] => [(name, v)]
  | (n, u) :: rest => if n = name then (n, v) :: rest else (n, u) :: setName name v rest

/-- The value a name holds; `none` where nothing is written under it. -/
def getName {α : Type} (name : Ident) : List (Ident × α) → Option α
  | [] => none
  | (n, u) :: rest => if n = name then some u else getName name rest

/-- A response reaches the host variable a line names; a line that names none discards it (30_encoding.md R73). -/
def setDest {α : Type} (dest : Option Ident) (v : α) (vars : List (Ident × α)) : List (Ident × α) :=
  match dest with
  | none => vars
  | some name => setName name v vars

/-- A caller receives a response: the variable is written and the position advances by one (10_state.md R29). -/
def Caller.receive (k : Caller) (dest : Option Ident) (v : Value) : Caller :=
  { k with pos := k.pos + 1, vars := setDest dest v k.vars }

/-! ## The order of service -/

/-- A caller with a request ready (20_memory.md R45). -/
def Caller.ready (k : Caller) : Bool :=
  decide (k.pos < k.prog.length)

/-- The next request of caller `c`, with the caller (10_state.md R29). -/
def State.nextLine (s : State) (c : Nat) : Option (Caller × Line) :=
  match s.callers[c]? with
  | none => none
  | some k =>
    match k.prog[k.pos]? with
    | none => none
    | some l => some (k, l)

/-- Caller `c` exists and has a request ready (20_memory.md R45). -/
def State.isReady (s : State) (c : Nat) : Bool :=
  match s.callers[c]? with
  | none => false
  | some k => k.ready

/-- The callers with a request ready, by number (20_memory.md R45). -/
def State.readyCallers (s : State) : List Nat :=
  (List.range s.callers.length).filter s.isReady

/-- Which ready caller is served, and the state with the choice used up: "It may choose the next request from any caller
that has one ready" (20_memory.md R45). The only one there is; else the one the next grant names; else a free choice. A
choice n means the ready caller at place n, counted round. `none`: no caller has a request ready. -/
def State.choose (s : State) : Option (Nat × State) :=
  match s.readyCallers with
  | [] => none
  | [c] => some (c, s)
  | c :: cs =>
    match s.grants with
    | g :: rest => some ((c :: cs).getD (g % (cs.length + 1)) c, { s with grants := rest })
    | [] => some ((c :: cs).getD (Config.pick s.picks % (cs.length + 1)) c, { s with picks := s.picks + 1 })

/-- The response on the result bus goes to the caller that issued the request, and the bus is free again (10_state.md R29,
R30). Where the request faulted there is no response: the variable stays unwritten and the position stays (60_exceptions.md
R201). -/
def State.deliver (s : State) (c : Nat) (dest : Option Ident) (kind : Kind) : State :=
  match s.bus with
  | none => s
  | some r => { s with bus := none, callers := s.callers.modify c fun k => k.receive dest (kind.ofBus r) }

end Sys2Proof.Machine
end

