-- ==== Sys2Proof/Machine/Divisibility.lean ====
section
/-! DEFINITION. The divisibility requests (44_divisibility.md). With m = 0 the answer is a fresh draw (R182); they never
fault (R185). -/

namespace Sys2Proof.Machine

/-- What the divisibility tester of word width w answers for n and m (44_divisibility.md R180, R181). -/
def State.testMultiple (s : State) (w n m : Nat) : State :=
  if m = 0 then s.respondDraw else s.respondBool (divides w m n)

/-- `is_multiple_of.u32 n, m` (44_divisibility.md R180). -/
def execIsMultipleOf32 (n : BitVec 32) (m : BitVec 64) (s : State) : Host.Outcome State Fault Refusal :=
  s.whenRunning (s.testMultiple 32 n.toNat m.toNat)

/-- `is_multiple_of.u64 n, m` (44_divisibility.md R181). -/
def execIsMultipleOf64 (n : BitVec 64) (m : BitVec 128) (s : State) : Host.Outcome State Fault Refusal :=
  s.whenRunning (s.testMultiple 64 n.toNat m.toNat)

end Sys2Proof.Machine
end

