-- ==== Sys2Proof/Machine/MagicConstant.lean ====
section
/-! DEFINITION. The magic-constant generator (41_magic_constant.md). Its one check comes before the division (R121). -/

namespace Sys2Proof.Machine

/-- What the generator of a track does with the divisor `d` (41_magic_constant.md R120, R121). -/
def State.generate (s : State) (t : Track) (d : BitVec 64) : State :=
  if d.toNat ≤ 1 then s.raiseFault .divisorLe1 t d else s.respond (gen t.width d.toNat)

/-- `precompute.u32 d` (41_magic_constant.md R122). -/
def execPrecompute32 (d : BitVec 32) (s : State) : Host.Outcome State Fault Refusal :=
  s.whenRunning (s.generate .u32 (d.setWidth 64))

/-- `precompute.u64 d` (41_magic_constant.md R123). -/
def execPrecompute64 (d : BitVec 64) (s : State) : Host.Outcome State Fault Refusal :=
  s.whenRunning (s.generate .u64 d)

end Sys2Proof.Machine
end

