-- ==== Sys2Proof/Machine/MultiplyHigh.lean ====
section
/-! DEFINITION. The multiply-high requests (40_multiply_high.md). They never fault. -/

namespace Sys2Proof.Machine

/-- `mulhi.u32 x, y` (40_multiply_high.md R103). -/
def execMulhi32 (x : BitVec 64) (y : BitVec 32) (s : State) : Host.Outcome State Fault Refusal :=
  s.whenRunning (s.respond (mulhi 32 x.toNat y.toNat))

/-- `mulhi.u64 x, y` (40_multiply_high.md R104). -/
def execMulhi64 (x : BitVec 128) (y : BitVec 64) (s : State) : Host.Outcome State Fault Refusal :=
  s.whenRunning (s.respond (mulhi 64 x.toNat y.toNat))

end Sys2Proof.Machine
end

