-- ==== Sys2Proof/Machine/Quotient.lean ====
section
/-! DEFINITION. The quotient requests (42_quotient.md). They do not check m and never fault (R143, R144). -/

namespace Sys2Proof.Machine

/-- `fast_div.u32 a, m` (42_quotient.md R140). -/
def execFastDiv32 (a : BitVec 32) (m : BitVec 64) (s : State) : Host.Outcome State Fault Refusal :=
  s.whenRunning (s.respond (mulhi 32 m.toNat a.toNat))

/-- `fast_div.u64 a, m` (42_quotient.md R141). -/
def execFastDiv64 (a : BitVec 64) (m : BitVec 128) (s : State) : Host.Outcome State Fault Refusal :=
  s.whenRunning (s.respond (mulhi 64 m.toNat a.toNat))

end Sys2Proof.Machine
end

