-- ==== Sys2Proof/Machine/Remainder.lean ====
section
/-! DEFINITION. The remainder requests (43_remainder.md). The pairing check is built only in a debug build (R167); on a
mismatched pair the response is the datapath value (R165, 90_conflicts.md C10). -/

namespace Sys2Proof.Machine

/-- `pairing_check` fails: m was not generated from d (43_remainder.md R167). -/
def pairingFails (w m d : Nat) : Bool :=
  decide (d ≤ 1) || decide (gen w d ≠ m)

/-- What the remainder unit of a track does with a, m and d (43_remainder.md R161, R162): the check where it is built, then
the upper part of the low product times d. -/
def State.remainder (s : State) (t : Track) (a m : Nat) (d : BitVec 64) : State :=
  if s.pairingCheck && pairingFails t.width m d.toNat then s.raiseFault .pairingMismatch t d
  else s.respond (mulhi t.width (lowprod t.width m a) d.toNat)

/-- `fast_mod.u32 a, m, d` (43_remainder.md R161). -/
def execFastMod32 (a : BitVec 32) (m : BitVec 64) (d : BitVec 32) (s : State) : Host.Outcome State Fault Refusal :=
  s.whenRunning (s.remainder .u32 a.toNat m.toNat (d.setWidth 64))

/-- `fast_mod.u64 a, m, d` (43_remainder.md R162). -/
def execFastMod64 (a : BitVec 64) (m : BitVec 128) (d : BitVec 64) (s : State) : Host.Outcome State Fault Refusal :=
  s.whenRunning (s.remainder .u64 a.toNat m.toNat d)

end Sys2Proof.Machine
end

