-- ==== Sys2Proof/Machine/Dispatch.lean ====
section
/-! DEFINITION. One arm per request of the set (30_encoding.md R72): the block performs it. -/

namespace Sys2Proof.Machine

def exec (i : Instr) (s : State) : Host.Outcome State Fault Refusal :=
  match i with
  | .mulhi32 x y => Sys2Proof.Machine.execMulhi32 x y s
  | .precompute32 d => Sys2Proof.Machine.execPrecompute32 d s
  | .fastDiv32 a m => Sys2Proof.Machine.execFastDiv32 a m s
  | .fastMod32 a m d => Sys2Proof.Machine.execFastMod32 a m d s
  | .isMultipleOf32 n m => Sys2Proof.Machine.execIsMultipleOf32 n m s
  | .mulhi64 x y => Sys2Proof.Machine.execMulhi64 x y s
  | .precompute64 d => Sys2Proof.Machine.execPrecompute64 d s
  | .fastDiv64 a m => Sys2Proof.Machine.execFastDiv64 a m s
  | .fastMod64 a m d => Sys2Proof.Machine.execFastMod64 a m d s
  | .isMultipleOf64 n m => Sys2Proof.Machine.execIsMultipleOf64 n m s

end Sys2Proof.Machine
end

