-- ==== Sys2Proof/WellFormed.lean ====
section
/-! DEFINITION. What of a request list can be checked on the text alone: names, operand counts, command words and bus bits
(30_encoding.md R66, R69, R73). Host variables and the width of operands are checked in Machine/Launch.lean (R77).
A typed term `Instr` needs no check: its fields have the operands' widths (R76). -/

namespace Sys2Proof

/-- `letter` of the grammar (30_encoding.md R73). DESIGN CHOICE (log 9), safe: the ASCII letters. -/
def isLetter (c : Char) : Bool :=
  (decide ('a'.toNat ≤ c.toNat) && decide (c.toNat ≤ 'z'.toNat))
    || (decide ('A'.toNat ≤ c.toNat) && decide (c.toNat ≤ 'Z'.toNat))

/-- `digit` of the grammar (30_encoding.md R73). -/
def isDigit (c : Char) : Bool :=
  decide ('0'.toNat ≤ c.toNat) && decide (c.toNat ≤ '9'.toNat)

/-- `ident := letter { letter | digit | "_" }` (30_encoding.md R73). -/
def identOk : Ident → Bool
  | [] => false
  | c :: cs => isLetter c && cs.all fun k => isLetter k || isDigit k || k == '_'

/-- An operand of a line that the grammar can spell (30_encoding.md R73). -/
def Arg.ok : Arg → Bool
  | .lit _ => true
  | .var name => identOk name

/-- A bus tuple is a well-formed request when it decodes (30_encoding.md R70). -/
def Request.ok (r : Request) : Bool :=
  match decode r with
  | .ok _ => true
  | .error _ => false

/-- A line the grammar can spell: its names are identifiers and it has as many operands as its operation takes
(30_encoding.md R73). -/
def Line.ok (l : Line) : Bool :=
  (match l.dest with
    | none => true
    | some name => identOk name)
    && match l.body with
      | .call op args => decide (args.length = op.func.slots.length) && args.all Arg.ok
      | .raw _ => true

end Sys2Proof
end

