-- ==== Sys2Proof/Machine/Operands.lean ====
section
/-! DEFINITION. The operands of a line: literals and host variables (30_encoding.md R73, R77), their places on the buses
(R65), and the typed request a line spells once its variables hold values. -/

namespace Sys2Proof.Machine

/-- The refusal a rejected bus tuple gives (60_exceptions.md R206). -/
def refusalOf : Reject → Refusal
  | .reservedCmd => .reservedCmd
  | .operandBits => .operandBits

/-- The decoder, its rejections as refusals of the program (60_exceptions.md R206). -/
def decodeOrRefuse (r : Request) : Except Refusal Instr :=
  match decode r with
  | .ok i => .ok i
  | .error e => .error (refusalOf e)

/-- The value of an operand of `width` bits; refused where its host variable is unwritten or the value does not fit
(30_encoding.md R77). -/
def argValue (vars : Vars) (width : Nat) (a : Arg) : Except Refusal Nat :=
  match a with
  | .lit n => if n < 2 ^ width then .ok n else .error .illFormed
  | .var name =>
    match getName name vars with
    | none => .error .illFormed
    | some v => if v.toNat < 2 ^ width then .ok v.toNat else .error .illFormed

/-- Put the value of one operand on its bus (30_encoding.md R64). -/
def putOnBus (r : Request) (b : Bus) (n : Nat) : Request :=
  match b with
  | .x => { r with x := BitVec.ofNat 128 n }
  | .y => { r with y := BitVec.ofNat 64 n }
  | .z => { r with z := BitVec.ofNat 64 n }

/-- Fill the buses with a line's operands, in order; every other bus bit stays 0 (30_encoding.md R65, R66, R73). A line with
too few or too many operands is none the grammar can spell. -/
def fillBuses (vars : Vars) (t : Track) : List Bus → List Arg → Request → Except Refusal Request
  | [], [], r => .ok r
  | b :: bs, a :: as, r =>
    match argValue vars (b.width t) a with
    | .error e => .error e
    | .ok n => fillBuses vars t bs as (putOnBus r b n)
  | _, _, _ => .error .notInGrammar

/-- The request a line spells, its host variables replaced by their values (30_encoding.md R73, R76). -/
def lineInstr (vars : Vars) (l : Line) : Except Refusal Instr :=
  match l.body with
  | .raw r => decodeOrRefuse r
  | .call op args =>
    match fillBuses vars op.track op.func.slots args ⟨op.command, 0#128, 0#64, 0#64⟩ with
    | .error e => .error e
    | .ok r => decodeOrRefuse r

end Sys2Proof.Machine
end

