-- ==== Sys2Proof/Machine/Launch.lean ====
section
/-! DEFINITION. The launch and the admission of programs: a program is refused as a whole before any of its requests runs
(60_exceptions.md R206, 30_encoding.md R77), and a launch begins with the reset state (70_reset_and_hazards.md R242).

DEDUCED (log 7), unsafe where a host goes by declared width alone. Whether a host variable fits its operand (R77) depends on its VALUE in the spec's own example ("when
its high 64 bits are nonzero"). A request list has no control flow, so the text determines every value but those that come
from a boolean draw or from a request that faults. Where it does, the value must fit; where it does not, the width must.

DESIGN CHOICE (log 7), unsafe where a host checks such a line otherwise. The spec is silent on a variable assigned by a line
AFTER a request that faults, which is never performed. The model keeps no trace of the fault: such a line is forecast as if it
were performed, so where it does not depend on the faulting request, the value it would have had must fit. -/

namespace Sys2Proof.Machine

/-- What the text of a request list says of a host variable: the kind of its response, and its value where the text
determines it. -/
structure Forecast where
  kind : Kind
  value : Option Value
deriving DecidableEq, Repr

/-- The forecasts of a caller's host variables (log 7). -/
abbrev Forecasts := List (Ident × Forecast)

/-- The variables whose value the text determines. -/
def knownVars : Forecasts → Vars
  | [] => []
  | (n, f) :: rest =>
    match f.value with
    | some v => (n, v) :: knownVars rest
    | none => knownVars rest

/-- The response to a request that depends on nothing but its operands and the build (10_state.md R20): `none` where the
request faults or draws. It is the response the block gives right after reset. -/
def forecastResponse (check : Bool) (i : Instr) : Option Value :=
  match exec i { State.reset with pairingCheck := check } with
  | .next t =>
    match t.bus, t.draws with
    | some r, 0 => some ((opKind i.op).ofBus r)
    | _, _ => none
  | .fault _ => none
  | .refused _ => none

/-- The unit and track a line names; `none` where its command word is reserved. -/
def lineOp (l : Line) : Option Op :=
  match l.body with
  | .call op _ => some op
  | .raw r => decodeCommand r.cmd

/-- What the text says of a line's response. -/
def forecastLine (check : Bool) (env : Forecasts) (op : Op) (l : Line) : Forecast where
  kind := opKind op
  value :=
    match lineInstr (knownVars env) l with
    | .ok i => forecastResponse check i
    | .error _ => none

/-- The check of one operand of `width` bits before the run (30_encoding.md R77; log 7). -/
def argAdmitted (env : Forecasts) (width : Nat) (a : Arg) : Bool :=
  match a with
  | .lit n => decide (n < 2 ^ width)
  | .var name =>
    match getName name env with
    | none => false
    | some f =>
      match f.value with
      | some v => decide (v.toNat < 2 ^ width)
      | none => decide (f.kind.width ≤ width)

/-- The check of a line's operands before the run. -/
def argsAdmitted (env : Forecasts) (t : Track) : List Bus → List Arg → Bool
  | [], [] => true
  | b :: bs, a :: as => argAdmitted env (b.width t) a && argsAdmitted env t bs as
  | _, _ => false

/-- The check of one line before the run, its reason in the order of 60_exceptions.md R207: the grammar, then the command
word, then the bus bits, then the host variables; `none` admits it. -/
def lineRefusal (env : Forecasts) (l : Line) : Option Refusal :=
  if l.ok then
    match l.body with
    | .raw r =>
      match decode r with
      | .ok _ => none
      | .error e => some (refusalOf e)
    | .call op args => if argsAdmitted env op.track op.func.slots args then none else some .illFormed
  else some .notInGrammar

/-- The forecasts after one line (10_state.md R29). DESIGN CHOICE (log 7), unsafe where a host checks such a line otherwise: a
line after a request that faults, which is never performed, is forecast as if it were (R77 and R206 are silent on it). -/
def forecastNext (check : Bool) (env : Forecasts) (l : Line) : Forecasts :=
  match lineOp l with
  | none => env
  | some op => setDest l.dest (forecastLine check env op l) env

/-- The forecasts after the lines of a list, from the first on. -/
def forecastProgram (check : Bool) (env : Forecasts) : Program → Forecasts
  | [] => env
  | l :: rest => forecastProgram check (forecastNext check env l) rest

/-- The check of a request list before the run, line by line; `none` admits it (60_exceptions.md R206). -/
def programRefusal (check : Bool) (env : Forecasts) : Program → Option Refusal
  | [] => none
  | l :: rest =>
    match lineRefusal env l with
    | some r => some r
    | none => programRefusal check (forecastNext check env l) rest

/-- The check of every caller's list, in the callers' order; the first reason found is the one given (log 8). -/
def callersRefusal (check : Bool) : List Caller → Option Refusal
  | [] => none
  | k :: ks =>
    match programRefusal check [] k.prog with
    | some r => some r
    | none => callersRefusal check ks

/-- Why the loaded programs are refused; `none` admits them (60_exceptions.md R206). -/
def State.refusal (s : State) : Option Refusal :=
  callersRefusal s.pairingCheck s.callers

/-- A caller at the launch: position 0, no host variable written (70_reset_and_hazards.md R242). -/
def Caller.start (prog : Program) : Caller where
  prog := prog
  pos := 0
  vars := []

/-- The launch of one request list per caller, on a build with or without the pairing check: the reset state with the lists
loaded (70_reset_and_hazards.md R242), or the refusal of the whole (60_exceptions.md R206). -/
def launch (check : Bool) (progs : List Program) : Host.Outcome State Fault Refusal :=
  match progs with
  | [] => .refused .noCaller
  | p :: ps =>
    match callersRefusal check ((p :: ps).map Caller.start) with
    | some r => .refused r
    | none => .next { State.reset with callers := (p :: ps).map Caller.start, pairingCheck := check }

/-- A caller's request performed in one atomic step (20_memory.md R44, R45): the line spells a request, the block performs it,
the response is delivered. -/
def State.performNext (s : State) (c : Nat) : Host.Outcome State Fault Refusal :=
  match s.nextLine c with
  | none => .fault .launchFinal
  | some (k, l) =>
    match lineInstr k.vars l with
    | .error r => .refused r
    | .ok i =>
      match exec i s with
      | .next t => .next (t.deliver c l.dest (opKind i.op))
      | .fault e => .fault e
      | .refused r => .refused r

/-- One step of the launch: refused programs have no run (60_exceptions.md R206), a recorded fault stops the block (R202), a
launch with nothing left is final (70_reset_and_hazards.md R250), and otherwise one ready caller is served (20_memory.md
R45). -/
def State.advance (s : State) : Host.Outcome State Fault Refusal :=
  match s.refusal with
  | some r => .refused r
  | none =>
    match s.fault with
    | some _ => .fault .blockStopped
    | none =>
      match s.choose with
      | none => .fault .launchFinal
      | some (c, t) => t.performNext c

/-- The request list of one request given as its bus tuple, its response named `r` (log 1). -/
def oneRequest (r : Request) : Program :=
  [⟨some ['r'], .raw r⟩]

end Sys2Proof.Machine
end

