-- ==== Sys2Proof/Machine/Step.lean ====
section
/-! DEFINITION. One step of the machine, and the placing of one request where the next step takes it. -/

namespace Sys2Proof.Machine

/-- One step: `State.advance` of Machine/Launch.lean. -/
def step (s : State) : Host.Outcome State Fault Refusal :=
  s.advance

/-- The request whose bits are `w`, loaded as the one list of the one caller, so that the next step performs it (log 1). The
bits above `nbits` are 0. A recorded fault stays: the block then performs nothing, this request neither. -/
def State.withFetchWord (s : State) (nbits w : Nat) : State :=
  { s with callers := [Caller.start (oneRequest (tableRequest nbits w))] }

end Sys2Proof.Machine
end

