-- ==== Sys2Proof/Machine/HostBytes.lean ====
section
/-! DEFINITION. How a host that serialises a bus value to bytes lays them out: the byte order is an argument
(`HOST_BYTE_ORDER`, 20_memory.md R43). No operation of the block uses this file. -/

namespace Sys2Proof.Machine

/-- The `n` low bytes of a value, the least significant first. -/
def littleBytes : Nat → Nat → List (BitVec 8)
  | 0, _ => []
  | n + 1, v => BitVec.ofNat 8 v :: littleBytes n (v / 256)

/-- The value of bytes listed from the least significant on. -/
def littleValue : List (BitVec 8) → Nat
  | [] => 0
  | b :: bs => b.toNat + 256 * littleValue bs

/-- The `n` low bytes of a bus value at rising addresses, in the host's byte order (20_memory.md R43). -/
def serialise (order : Config.ByteOrder) (n v : Nat) : List (BitVec 8) :=
  match order with
  | .little => littleBytes n v
  | .big => (littleBytes n v).reverse

/-- The bus value that bytes at rising addresses hold, in the host's byte order (20_memory.md R43). -/
def deserialise (order : Config.ByteOrder) (bytes : List (BitVec 8)) : Nat :=
  match order with
  | .little => littleValue bytes
  | .big => littleValue bytes.reverse

end Sys2Proof.Machine
end

