-- ==== Sys2Proof/Machine/Assembler.lean ====
section
/-! DEFINITION. The assembler syntax of a request list (30_encoding.md R73): from text to lines. There are no
pseudo-instructions, and every mnemonic spells one command word (R74). DESIGN CHOICE (log 9), safe: the characters a word may
hold, and blanks between words. -/

namespace Sys2Proof.Machine

/-- What a line of text is made of. -/
inductive Token where
  | word (text : List Char)
  | equals
  | comma
deriving DecidableEq, Repr

/-- A character of a name, a literal or a mnemonic. -/
def isWordChar (c : Char) : Bool :=
  isLetter c || isDigit c || c == '_' || c == '.'

/-- A blank inside a line. -/
def isBlank (c : Char) : Bool :=
  c == ' ' || c == '\t' || c == '\r'

/-- The word read so far, its last character first, before the tokens that follow it. -/
def endWord (word : List Char) (rest : List Token) : List Token :=
  match word with
  | [] => rest
  | c :: cs => .word (c :: cs).reverse :: rest

/-- The tokens of a line, up to its comment; `word` is the word being read, its last character first. DESIGN CHOICE (log 9),
safe: the grammar gives no production for `comment`, so it is every character after the first `;` of the line, whatever it is. -/
def tokens : List Char → List Char → Option (List Token)
  | word, [] => some (endWord word [])
  | word, c :: cs =>
    if c == ';' then some (endWord word [])
    else if isBlank c then (tokens [] cs).map (endWord word)
    else if c == '=' then (tokens [] cs).map fun ts => endWord word (.equals :: ts)
    else if c == ',' then (tokens [] cs).map fun ts => endWord word (.comma :: ts)
    else if isWordChar c then tokens (c :: word) cs
    else none

/-- The mnemonics of the request set (00_scope.md R3, 30_encoding.md R72). -/
def mnemonics : List (String × Op) :=
  [("mulhi.u32", ⟨.mulhi, .u32⟩), ("precompute.u32", ⟨.precompute, .u32⟩), ("fast_div.u32", ⟨.fastDiv, .u32⟩),
    ("fast_mod.u32", ⟨.fastMod, .u32⟩), ("is_multiple_of.u32", ⟨.isMultipleOf, .u32⟩),
    ("mulhi.u64", ⟨.mulhi, .u64⟩), ("precompute.u64", ⟨.precompute, .u64⟩), ("fast_div.u64", ⟨.fastDiv, .u64⟩),
    ("fast_mod.u64", ⟨.fastMod, .u64⟩), ("is_multiple_of.u64", ⟨.isMultipleOf, .u64⟩)]

/-- The unit and track of a mnemonic. -/
def parseMnemonic (text : List Char) : Option Op :=
  (mnemonics.find? fun e => e.1.toList == text).map Prod.snd

/-- The value of a digit, decimal or hexadecimal. -/
def digitValue (c : Char) : Option Nat :=
  if isDigit c then some (c.toNat - '0'.toNat)
  else if decide ('a'.toNat ≤ c.toNat) && decide (c.toNat ≤ 'f'.toNat) then some (c.toNat - 'a'.toNat + 10)
  else if decide ('A'.toNat ≤ c.toNat) && decide (c.toNat ≤ 'F'.toNat) then some (c.toNat - 'A'.toNat + 10)
  else none

/-- A run of digits of a base, continuing the value read so far. -/
def digitsValue (base : Nat) : Nat → List Char → Option Nat
  | n, [] => some n
  | n, c :: cs =>
    match digitValue c with
    | none => none
    | some d => if d < base then digitsValue base (n * base + d) cs else none

/-- `literal := decimal digits | "0x" hex digits` (30_encoding.md R73). -/
def parseLiteral : List Char → Option Nat
  | '0' :: 'x' :: c :: cs => digitsValue 16 0 (c :: cs)
  | c :: cs => digitsValue 10 0 (c :: cs)
  | [] => none

/-- `operand := literal | ident` (30_encoding.md R73). -/
def parseArg (text : List Char) : Option Arg :=
  if identOk text then some (.var text) else (parseLiteral text).map .lit

/-- `operand { "," operand }` (30_encoding.md R73). -/
def parseArgs : List Token → Option (List Arg)
  | [.word t] => (parseArg t).map fun a => [a]
  | .word t :: .comma :: rest =>
    match parseArg t, parseArgs rest with
    | some a, some as => some (a :: as)
    | _, _ => none
  | _ => none

/-- `mnemonic operand { "," operand }`, with as many operands as the operation takes (30_encoding.md R73). -/
def parseCall (dest : Option Ident) : List Token → Option Line
  | .word m :: rest =>
    match parseMnemonic m, parseArgs rest with
    | some op, some args => if args.length = op.func.slots.length then some ⟨dest, .call op args⟩ else none
    | _, _ => none
  | _ => none

/-- `line := [ ident "=" ] mnemonic operand { "," operand } [ ";" comment ]` (30_encoding.md R73). -/
def parseLine (text : List Char) : Option Line :=
  match tokens [] text with
  | some (.word d :: .equals :: rest) => if identOk d then parseCall (some d) rest else none
  | some ts => parseCall none ts
  | none => none

/-- `program := line NEWLINE, any number of times` (30_encoding.md R73); `line` is the line being read, its last character
first. -/
def parseProgram : List Char → List Char → Option Program
  | [], [] => some []
  | _ :: _, [] => none
  | line, c :: cs =>
    if c == '\n' then
      match parseLine line.reverse, parseProgram [] cs with
      | some l, some ls => some (l :: ls)
      | _, _ => none
    else parseProgram (c :: line) cs

/-- The request lists of several texts, one per caller. -/
def assemble : List (List Char) → Option (List Program)
  | [] => some []
  | t :: ts =>
    match parseProgram [] t, assemble ts with
    | some p, some ps => some (p :: ps)
    | _, _ => none

/-- The launch of one text per caller: a text the grammar cannot spell is no program (30_encoding.md R73). DESIGN CHOICE (log 8),
unsafe for the reason alone: every text is read before any list is checked, so a text of any caller that the grammar cannot spell gives the reason. -/
def launchTexts (check : Bool) (texts : List (List Char)) : Host.Outcome State Fault Refusal :=
  match assemble texts with
  | some progs => launch check progs
  | none => .refused .notInGrammar

end Sys2Proof.Machine
end

