-- ==== Sys2Proof/Safety.lean ====
section
/-! DEFINITION. What counts as the end of a run, as a safe run and as an honoured pairing, in the terms the statements use
(70_reset_and_hazards.md R244, R249, R250), and the invariant of a launch. -/

namespace Sys2Proof.Machine

/-- A fault is recorded, so the block is stopped for good (60_exceptions.md R202). -/
def State.stopped (s : State) : Bool :=
  s.fault.isSome

/-- Every caller has performed every request of its program (70_reset_and_hazards.md R250). -/
def State.finished (s : State) : Bool :=
  s.callers.all fun k => !k.ready

/-- A final launch: everything performed and VALID = 0 (70_reset_and_hazards.md R250). -/
def State.final (s : State) : Bool :=
  s.finished && !s.stopped

/-- The observation of a final launch: every caller's host variables and the fault record; a launch that is not final has
none (70_reset_and_hazards.md R250, 60_exceptions.md R202). -/
def State.observe (s : State) : Option (List Vars × BitVec 16 × BitVec 64) :=
  if s.final then some (s.callers.map Caller.vars, s.faultStatus, s.faultInfo) else none

/-- How many requests are still to be performed (70_reset_and_hazards.md R249). -/
def State.remaining (s : State) : Nat :=
  (s.callers.map fun k => k.prog.length - k.pos).sum

/-- A divisor the generator accepts (41_magic_constant.md R120). -/
def ValidDivisor (w d : Nat) : Prop :=
  2 ≤ d ∧ d < 2 ^ w

/-- The pairing obligation: m was generated from the valid divisor d on the track of width w (70_reset_and_hazards.md
R244). -/
def Paired (w m d : Nat) : Prop :=
  ValidDivisor w d ∧ m = gen w d

/-- A request a caller may issue without stopping the block: a divisor above 1 for `precompute` (70_reset_and_hazards.md
R246), and an honoured pairing for `fast_mod` on a build that checks it (43_remainder.md R167). -/
def CannotFault (check : Bool) : Instr → Prop
  | .mulhi32 _ _ => True
  | .precompute32 d => 2 ≤ d.toNat
  | .fastDiv32 _ _ => True
  | .fastMod32 _ m d => check = false ∨ Paired 32 m.toNat d.toNat
  | .isMultipleOf32 _ _ => True
  | .mulhi64 _ _ => True
  | .precompute64 d => 2 ≤ d.toNat
  | .fastDiv64 _ _ => True
  | .fastMod64 _ m d => check = false ∨ Paired 64 m.toNat d.toNat
  | .isMultipleOf64 _ _ => True

/-- A request whose response is not a draw: the divisibility test of an m other than 0 (44_divisibility.md R182). -/
def NoDraw : Instr → Prop
  | .mulhi32 _ _ => True
  | .precompute32 _ => True
  | .fastDiv32 _ _ => True
  | .fastMod32 _ _ _ => True
  | .isMultipleOf32 _ m => m ≠ 0#64
  | .mulhi64 _ _ => True
  | .precompute64 _ => True
  | .fastDiv64 _ _ => True
  | .fastMod64 _ _ _ => True
  | .isMultipleOf64 _ m => m ≠ 0#128

/-! ## Programs that fit by their widths -/

/-- An operand that fits whatever values the host variables hold: a literal below two to the width, or a variable that an
earlier line assigns and no earlier line assigns a response of a greater width (30_encoding.md R77). -/
def ArgFits (before : Program) (width : Nat) : Arg → Prop
  | .lit n => n < 2 ^ width
  | .var name =>
    (∃ e ∈ before, e.dest = some name)
      ∧ ∀ e ∈ before, e.dest = some name → ∀ op, lineOp e = some op → (opKind op).width ≤ width

/-- A line whose operands fit, or whose bus tuple decodes (30_encoding.md R70, R77). -/
def LineFits (before : Program) (l : Line) : Prop :=
  match l.body with
  | .raw r => ∃ i, decode r = .ok i
  | .call op args =>
    ∀ (j : Nat) (b : Bus) (a : Arg), op.func.slots[j]? = some b → args[j]? = some a → ArgFits before (b.width op.track) a

/-- A request list the grammar can spell whose every line fits after the lines before it (30_encoding.md R73, R77). -/
def ProgramFits (p : Program) : Prop :=
  ∀ (n : Nat) (l : Line), p[n]? = some l → l.ok = true ∧ LineFits (p.take n) l

/-! ## The invariant of a launch -/

/-- The fields of a recorded fault are as its entry writes them (10_state.md R24, 60_exceptions.md R200): the divisor fits
the track, code 1 comes with d <= 1, code 2 only from a build with the pairing check. -/
def State.FaultOk (s : State) : Prop :=
  ∀ r, s.fault = some r →
    r.divisor.toNat < 2 ^ r.track.width
      ∧ (r.code = .divisorLe1 → r.divisor.toNat ≤ 1)
      ∧ (r.code = .pairingMismatch → s.pairingCheck = true)

/-- The written host variables are the forecast ones, of the forecast kinds, and hold the forecast values where there are
any (10_state.md R29; log 7). -/
def VarsAgree (env : Forecasts) (vars : Vars) : Prop :=
  (∀ name, getName name env = none → getName name vars = none)
    ∧ ∀ name f, getName name env = some f →
        ∃ v, getName name vars = some v ∧ v.kind = f.kind ∧ ∀ u, f.value = some u → v = u

/-- What holds of a caller between steps: its position is within its list, and its variables are those the performed lines
wrote (10_state.md R29). -/
def Caller.Agrees (check : Bool) (k : Caller) : Prop :=
  k.pos ≤ k.prog.length ∧ VarsAgree (forecastProgram check [] (k.prog.take k.pos)) k.vars

/-- What holds of a launch between steps: nothing on the result bus (10_state.md R30), a sound fault record, programs that
are admitted (60_exceptions.md R206), callers that agree with them. -/
def State.Inv (s : State) : Prop :=
  s.bus = none ∧ s.FaultOk ∧ s.refusal = none ∧ ∀ k ∈ s.callers, k.Agrees s.pairingCheck

end Sys2Proof.Machine
end

