-- ==== Sys2Proof/Certificates/Slice0/Obligations.lean ====
section
/-! DEFINITION. The statements for the provers, from the numbered rules of the spec. Each docstring names its rules. -/

open Sys2Proof Sys2Proof.Machine

/-! ## Encoding (30_encoding.md) -/

/-- Request words written out from R72, R64 and R65 decode to the requests they spell (95_test_vectors.md: E9, E10,
G6, Q7, and P4's `is_multiple_of.u64 1000`), and P7's word and E6 are rejected by their reasons. -/
def Obligations.SpecWordsDecode : Prop :=
  decode ⟨0x0B#8, 0x55555555555555555555555555555556#128, 4#64, 3#64⟩
      = .ok (.fastMod64 4#64 0x55555555555555555555555555555556#128 3#64)
    ∧ decode ⟨0x00#8, 0xFFFFFFFFFFFFFFFF#128, 0xFFFFFFFF#64, 0#64⟩ = .ok (.mulhi32 0xFFFFFFFFFFFFFFFF#64 0xFFFFFFFF#32)
    ∧ decode ⟨0x01#8, 0#128, 3#64, 0#64⟩ = .ok (.precompute32 3#32)
    ∧ decode ⟨0x02#8, 0x199999999999999A#128, 100#64, 0#64⟩ = .ok (.fastDiv32 100#32 0x199999999999999A#64)
    ∧ decode ⟨0x0C#8, 0x1999999999999999999999999999999A#128, 1000#64, 0#64⟩
      = .ok (.isMultipleOf64 1000#64 0x1999999999999999999999999999999A#128)
    ∧ decode ⟨0x0D#8, 0#128, 0#64, 0#64⟩ = .error .reservedCmd
    ∧ decode ⟨0x02#8, 0x5555555555555556#128, 0x100000000#64, 0#64⟩ = .error .operandBits

/-- R69: which command words are reserved, that they are 246, that such a request is rejected with `RESERVED_CMD`, and that a
program that holds one has no run; where nothing before it is refused and nothing follows it, `RESERVED_CMD` is the reason. -/
def Obligations.ReservedCommandsRefused : Prop :=
  (∀ r : Request, decode r = .error .reservedCmd ↔
      (r.cmd.extractLsb' 4 4 ≠ 0#4 ∨ r.cmd.extractLsb' 0 3 = 5#3 ∨ r.cmd.extractLsb' 0 3 = 6#3
        ∨ r.cmd.extractLsb' 0 3 = 7#3))
    ∧ ((List.range 256).filter fun c => (decodeCommand (BitVec.ofNat 8 c)).isNone).length = 246
    ∧ (∀ check dest r, decode r = .error .reservedCmd → (⟨dest, .raw r⟩ : Line).ok = true →
        launch check [[⟨dest, .raw r⟩]] = .refused .reservedCmd)
    ∧ (∀ check progs p dest r, p ∈ progs → (⟨dest, .raw r⟩ : Line) ∈ p → decode r = .error .reservedCmd →
        ∃ reason, launch check progs = .refused reason)
    ∧ ∀ check (callers : List Program) (before : Program) dest r s, launch check (callers ++ [before]) = .next s →
        decode r = .error .reservedCmd → (⟨dest, .raw r⟩ : Line).ok = true →
        launch check (callers ++ [before ++ [⟨dest, .raw r⟩]]) = .refused .reservedCmd

/-- R72: the complete set of legal command words, each with its mnemonic, its unit, its track and the buses its format reads;
every other one is reserved. -/
def Obligations.LegalCommandWords : Prop :=
  let table : List (BitVec 8 × String × Op × List Bus) :=
    [(0x00#8, "mulhi.u32", ⟨.mulhi, .u32⟩, [.x, .y]), (0x01#8, "precompute.u32", ⟨.precompute, .u32⟩, [.y]),
      (0x02#8, "fast_div.u32", ⟨.fastDiv, .u32⟩, [.x, .y]), (0x03#8, "fast_mod.u32", ⟨.fastMod, .u32⟩, [.x, .y, .z]),
      (0x04#8, "is_multiple_of.u32", ⟨.isMultipleOf, .u32⟩, [.x, .y]),
      (0x08#8, "mulhi.u64", ⟨.mulhi, .u64⟩, [.x, .y]), (0x09#8, "precompute.u64", ⟨.precompute, .u64⟩, [.y]),
      (0x0A#8, "fast_div.u64", ⟨.fastDiv, .u64⟩, [.x, .y]), (0x0B#8, "fast_mod.u64", ⟨.fastMod, .u64⟩, [.x, .y, .z]),
      (0x0C#8, "is_multiple_of.u64", ⟨.isMultipleOf, .u64⟩, [.x, .y])]
  (∀ row ∈ table, decodeCommand row.1 = some row.2.2.1 ∧ row.2.2.1.command = row.1
      ∧ parseMnemonic row.2.1.toList = some row.2.2.1
      ∧ ∀ b, 0 < row.2.2.1.readWidth b ↔ b ∈ row.2.2.2)
    ∧ ∀ cmd, cmd ∉ table.map Prod.fst → decodeCommand cmd = none

/-- R66: with a legal command word, a request is rejected with `OPERAND_BITS` exactly when a bus bit its operation does not
read is 1 (the widths are those of R65, 0 for an unused bus), and a program that holds such a request has no run; where nothing
before it is refused and nothing follows it, `OPERAND_BITS` is the reason. -/
def Obligations.StrayBusBitsRefused : Prop :=
  let table : List (BitVec 8 × Nat × Nat × Nat) :=
    [(0x00#8, 64, 32, 0), (0x01#8, 0, 32, 0), (0x02#8, 64, 32, 0), (0x03#8, 64, 32, 32), (0x04#8, 64, 32, 0),
      (0x08#8, 128, 64, 0), (0x09#8, 0, 64, 0), (0x0A#8, 128, 64, 0), (0x0B#8, 128, 64, 64), (0x0C#8, 128, 64, 0)]
  (∀ row ∈ table, ∀ x y z, decode ⟨row.1, x, y, z⟩ = .error .operandBits ↔
      (2 ^ row.2.1 ≤ x.toNat ∨ 2 ^ row.2.2.1 ≤ y.toNat ∨ 2 ^ row.2.2.2 ≤ z.toNat))
    ∧ (∀ check dest r, decode r = .error .operandBits → (⟨dest, .raw r⟩ : Line).ok = true →
        launch check [[⟨dest, .raw r⟩]] = .refused .operandBits)
    ∧ (∀ check progs p dest r, p ∈ progs → (⟨dest, .raw r⟩ : Line) ∈ p → decode r = .error .operandBits →
        ∃ reason, launch check progs = .refused reason)
    ∧ ∀ check (callers : List Program) (before : Program) dest r s, launch check (callers ++ [before]) = .next s →
        decode r = .error .operandBits → (⟨dest, .raw r⟩ : Line).ok = true →
        launch check (callers ++ [before ++ [⟨dest, .raw r⟩]]) = .refused .operandBits

/-- Decoding the encoding of a typed request gives it back, with every operand at every value (R64, R65, R72, R76). -/
def Obligations.DecodeEncodeRoundTrip : Prop :=
  ∀ i : Instr, decode (encode i) = .ok i

/-- A bus tuple that decodes is the encoding of the typed request it decodes to (R76: the two correspond one to one on
well-formed requests). -/
def Obligations.EncodeDecodeRoundTrip : Prop :=
  ∀ (r : Request) (i : Instr), decode r = .ok i → encode i = r

/-- A request is 264 bits (R71); as one number it keeps every bit (the order of the buses in it is the model's, log 10). -/
def Obligations.RequestBitsRoundTrip : Prop :=
  (∀ r : Request, r.toNat < 2 ^ 264 ∧ Request.ofNat r.toNat = r)
    ∧ ∀ i : Instr, decodeTableWord 264 (encode i).toNat = some i

/-- R74: every mnemonic spells exactly one command word, and every legal command word is spelt by exactly one mnemonic: none is
left over for a pseudo-instruction. The assembler takes a text for a mnemonic exactly where it is one of R72, and as that
row's command word. -/
def Obligations.MnemonicsSpellCommandWords : Prop :=
  let table : List (String × BitVec 8) :=
    [("mulhi.u32", 0x00#8), ("precompute.u32", 0x01#8), ("fast_div.u32", 0x02#8), ("fast_mod.u32", 0x03#8),
      ("is_multiple_of.u32", 0x04#8), ("mulhi.u64", 0x08#8), ("precompute.u64", 0x09#8), ("fast_div.u64", 0x0A#8),
      ("fast_mod.u64", 0x0B#8), ("is_multiple_of.u64", 0x0C#8)]
  (mnemonics.map fun e => e.1).Nodup
    ∧ (mnemonics.map fun e => e.2.command).Nodup
    ∧ (∀ cmd op, decodeCommand cmd = some op ↔ (op ∈ mnemonics.map (fun e => e.2) ∧ op.command = cmd))
    ∧ ∀ text op, parseMnemonic text = some op ↔ ∃ row ∈ table, row.1.toList = text ∧ decodeCommand row.2 = some op

/-- The operands of a line fill the buses in the order of the source's signatures (R65, R73): with literals that fit, each
line spells the typed request with those operands. -/
def Obligations.LiteralLinesSpellTheirRequest : Prop :=
  ∀ (vars : Vars) (dest : Option Ident) (m : Nat) (a d : Nat),
    (m < 2 ^ 64 → a < 2 ^ 32 → d < 2 ^ 32 →
      lineInstr vars ⟨dest, .call ⟨.mulhi, .u32⟩ [.lit m, .lit a]⟩ = .ok (.mulhi32 (BitVec.ofNat 64 m) (BitVec.ofNat 32 a))
      ∧ lineInstr vars ⟨dest, .call ⟨.precompute, .u32⟩ [.lit d]⟩ = .ok (.precompute32 (BitVec.ofNat 32 d))
      ∧ lineInstr vars ⟨dest, .call ⟨.fastDiv, .u32⟩ [.lit a, .lit m]⟩
        = .ok (.fastDiv32 (BitVec.ofNat 32 a) (BitVec.ofNat 64 m))
      ∧ lineInstr vars ⟨dest, .call ⟨.fastMod, .u32⟩ [.lit a, .lit m, .lit d]⟩
        = .ok (.fastMod32 (BitVec.ofNat 32 a) (BitVec.ofNat 64 m) (BitVec.ofNat 32 d))
      ∧ lineInstr vars ⟨dest, .call ⟨.isMultipleOf, .u32⟩ [.lit a, .lit m]⟩
        = .ok (.isMultipleOf32 (BitVec.ofNat 32 a) (BitVec.ofNat 64 m)))
    ∧ (m < 2 ^ 128 → a < 2 ^ 64 → d < 2 ^ 64 →
      lineInstr vars ⟨dest, .call ⟨.mulhi, .u64⟩ [.lit m, .lit a]⟩
        = .ok (.mulhi64 (BitVec.ofNat 128 m) (BitVec.ofNat 64 a))
      ∧ lineInstr vars ⟨dest, .call ⟨.precompute, .u64⟩ [.lit d]⟩ = .ok (.precompute64 (BitVec.ofNat 64 d))
      ∧ lineInstr vars ⟨dest, .call ⟨.fastDiv, .u64⟩ [.lit a, .lit m]⟩
        = .ok (.fastDiv64 (BitVec.ofNat 64 a) (BitVec.ofNat 128 m))
      ∧ lineInstr vars ⟨dest, .call ⟨.fastMod, .u64⟩ [.lit a, .lit m, .lit d]⟩
        = .ok (.fastMod64 (BitVec.ofNat 64 a) (BitVec.ofNat 128 m) (BitVec.ofNat 64 d))
      ∧ lineInstr vars ⟨dest, .call ⟨.isMultipleOf, .u64⟩ [.lit a, .lit m]⟩
        = .ok (.isMultipleOf64 (BitVec.ofNat 64 a) (BitVec.ofNat 128 m)))

/-- A host variable fills an operand with its value, a boolean with 0 or 1, where it fits, and is `ILL_FORMED` where it is
unwritten or does not (R77). That the VALUE decides is the model's reading (log 7). -/
def Obligations.HostVariableOperand : Prop :=
  ∀ (vars : Vars) (width : Nat) (name : Ident),
    (getName name vars = none → argValue vars width (.var name) = .error .illFormed)
    ∧ ∀ v, getName name vars = some v →
      (v.toNat < 2 ^ width → argValue vars width (.var name) = .ok v.toNat)
      ∧ (2 ^ width ≤ v.toNat → argValue vars width (.var name) = .error .illFormed)
      ∧ (v = .boolean false → 1 ≤ width → argValue vars width (.var name) = .ok 0)
      ∧ (v = .boolean true → 1 ≤ width → argValue vars width (.var name) = .ok 1)

/-! ## The launch (60_exceptions.md R206, 70_reset_and_hazards.md R240, R242) -/

/-- A program is refused as a whole where a line names a host variable no earlier line of the same caller assigns (R77,
R206), and with `ILL_FORMED` where the earlier lines and the earlier callers are admitted. That what follows does not change the
reason is the model's choice (log 8). -/
def Obligations.UnassignedVariableRefusesLaunch : Prop :=
  (∀ check progs before after dest op args name,
    (before ++ ⟨dest, .call op args⟩ :: after : Program) ∈ progs → Arg.var name ∈ args →
    (∀ l ∈ before, l.dest ≠ some name) → ∃ reason, launch check progs = .refused reason)
  ∧ ∀ check (callers : List Program) (before after : Program) (more : List Program) dest op args name s,
    launch check (callers ++ [before]) = .next s → (⟨dest, .call op args⟩ : Line).ok = true → Arg.var name ∈ args →
    (∀ l ∈ before, l.dest ≠ some name) →
    launch check (callers ++ (before ++ ⟨dest, .call op args⟩ :: after) :: more) = .refused .illFormed

/-- A program is refused as a whole where a literal does not fit the width of its operand (R77, R206), and with `ILL_FORMED`
where the earlier lines and the earlier callers are admitted. That what follows does not change the reason is the model's choice
(log 8). -/
def Obligations.WideLiteralRefusesLaunch : Prop :=
  (∀ check progs p dest op args (j : Nat) (b : Bus) (n : Nat),
    p ∈ progs → (⟨dest, .call op args⟩ : Line) ∈ p → op.func.slots[j]? = some b → args[j]? = some (.lit n) →
    2 ^ b.width op.track ≤ n → ∃ reason, launch check progs = .refused reason)
  ∧ ∀ check (callers : List Program) (before after : Program) (more : List Program) dest op args (j : Nat) (b : Bus) (n : Nat) s,
    launch check (callers ++ [before]) = .next s → (⟨dest, .call op args⟩ : Line).ok = true →
    op.func.slots[j]? = some b → args[j]? = some (.lit n) → 2 ^ b.width op.track ≤ n →
    launch check (callers ++ (before ++ ⟨dest, .call op args⟩ :: after) :: more) = .refused .illFormed

/-- A magic constant of the 64-bit track fits no operand of any 32-bit request (R77, R124): the program of 95_test_vectors.md
P7 is refused with `ILL_FORMED` for every valid divisor and every dividend, and so is every launch in which, after lines and
callers that are admitted, a line of the 32-bit track names, as any operand, a variable whose last assignment is a
`precompute.u64` line, its divisor a literal or a host variable or its request raw. That the value decides, and the width where
the text does not determine the value or the divisor is no valid one, is the model's reading (log 7); that what follows does not
change the reason is its choice (log 8). -/
def Obligations.CrossTrackConstantRefusesLaunch : Prop :=
  (∀ check d a, ValidDivisor 64 d → a < 2 ^ 32 →
    launch check [[⟨some ['m'], .call ⟨.precompute, .u64⟩ [.lit d]⟩,
        ⟨some ['q'], .call ⟨.fastDiv, .u32⟩ [.lit a, .var ['m']]⟩]] = .refused .illFormed)
  ∧ ∀ check name (callers : List Program) (before : Program) (e : Line) (between after : Program) (more : List Program)
      dest func args s,
    e.dest = some name → lineOp e = some ⟨.precompute, .u64⟩ →
    launch check (callers ++ [before ++ e :: between]) = .next s →
    (∀ l ∈ between, l.dest ≠ some name) →
    (⟨dest, .call ⟨func, .u32⟩ args⟩ : Line).ok = true → Arg.var name ∈ args →
    launch check (callers ++ (before ++ e :: between ++ ⟨dest, .call ⟨func, .u32⟩ args⟩ :: after) :: more)
      = .refused .illFormed

/-- R240: reset sets both fault registers to 0; the result bus holds no value. -/
def Obligations.ResetClearsBlockState : Prop :=
  State.reset.faultStatus = 0x0000#16 ∧ State.reset.faultInfo = 0#64 ∧ State.reset.fault = none ∧ State.reset.bus = none

/-- A launch begins with the reset state, each caller at position 0 of its program with no host variable written (R242), one
caller for each list given (R9). -/
def Obligations.LaunchStartsFromReset : Prop :=
  ∀ check progs s, launch check progs = .next s →
    s.faultStatus = 0#16 ∧ s.faultInfo = 0#64 ∧ s.bus = none ∧ s.pairingCheck = check
      ∧ 1 ≤ s.callers.length ∧ s.callers.map Caller.prog = progs
      ∧ ∀ k ∈ s.callers, k.pos = 0 ∧ k.vars = []

/-! ## The fault registers (10_state.md R24) -/

/-- The fields of the fault registers in every state: VALID says whether a fault is recorded, [7:2] read as 0, every field is
0 while VALID = 0, and a recorded fault shows its code number (R200), its track and its divisor (R24). -/
def Obligations.FaultRegisterFields : Prop :=
  ∀ s : State,
    (s.faultStatus.getLsbD 0 = s.fault.isSome) ∧ s.faultStatus.extractLsb' 2 6 = 0#6
    ∧ (s.faultStatus.getLsbD 0 = false → s.faultStatus = 0#16 ∧ s.faultInfo = 0#64)
    ∧ ∀ r, s.fault = some r →
        s.faultStatus.extractLsb' 8 8 = (match r.code with | .divisorLe1 => 1#8 | .pairingMismatch => 2#8)
        ∧ s.faultStatus.getLsbD 1 = (match r.track with | .u32 => false | .u64 => true) ∧ s.faultInfo = r.divisor

/-! ## The helper functions (40_multiply_high.md, 41_magic_constant.md, 43_remainder.md) -/

/-- R101: the product is below 2^(3w), so the upper part fits in w bits. -/
def Obligations.MultiplyHighFits : Prop :=
  ∀ w x y, x < 2 ^ (2 * w) → y < 2 ^ w → x * y < 2 ^ (3 * w) ∧ mulhi w x y < 2 ^ w

/-- R105: the 32-bit datapath, a widening multiply and a shift, gives `MULHI_32` (its product is below 2^96). -/
def Obligations.WideDatapathIsMultiplyHigh : Prop :=
  ∀ (x : BitVec 64) (y : BitVec 32),
    x.toNat * y.toNat < 2 ^ 96 ∧ (mulhiWide32 x y).toNat = mulhi 32 x.toNat y.toNat

/-- The 64-bit datapath of R106: the sum of the partial products has no carry out of 128 bits, and the limb computation gives
`MULHI_64` of R100. -/
def Obligations.LimbDatapathIsMultiplyHigh : Prop :=
  ∀ (x : BitVec 128) (y : BitVec 64),
    (limbSum64 x y).toNat = (limbHigh x).toNat * y.toNat + (limbLow x).toNat * y.toNat / 2 ^ 64
    ∧ (limbSum64 x y).toNat ≤ 2 ^ 128 - 2 ^ 64 - 1
    ∧ (mulhiLimbs64 x y).toNat = mulhi 64 x.toNat y.toNat

/-- R124: the magic constant is the ceiling of 2^(2w)/d (with the two cases of its floor), lies between 2^w + 2 and 2^(2w-1),
both reached, fits in 2w bits, has a bit at or above bit w, and is strictly decreasing in d; 2^(2w)/(d(d+1)), by which the
exact quotients of consecutive divisors differ, is above 1. -/
def Obligations.MagicConstantProperties : Prop :=
  ∀ (t : Track) (d : Nat), ValidDivisor t.width d →
    gen t.width d = (2 ^ (2 * t.width) + d - 1) / d
    ∧ (d ∣ 2 ^ (2 * t.width) → (2 ^ (2 * t.width) - 1) / d = 2 ^ (2 * t.width) / d - 1)
    ∧ (¬ d ∣ 2 ^ (2 * t.width) → (2 ^ (2 * t.width) - 1) / d = 2 ^ (2 * t.width) / d)
    ∧ 2 ^ t.width + 2 ≤ gen t.width d ∧ gen t.width d ≤ 2 ^ (2 * t.width - 1)
    ∧ gen t.width 2 = 2 ^ (2 * t.width - 1) ∧ gen t.width (2 ^ t.width - 1) = 2 ^ t.width + 2
    ∧ gen t.width d < 2 ^ (2 * t.width) ∧ 2 ^ t.width < gen t.width d
    ∧ (∀ e, ValidDivisor t.width e → d < e → gen t.width e < gen t.width d)
    ∧ (ValidDivisor t.width (d + 1) → d * (d + 1) < 2 ^ (2 * t.width))

/-- R164: quotient times divisor plus remainder gives the dividend, and the left side fits in w bits. -/
def Obligations.ReconstructionLaw : Prop :=
  ∀ (t : Track) (d a m : Nat), Paired t.width m d → a < 2 ^ t.width →
    mulhi t.width m a * d + mulhi t.width (lowprod t.width m a) d = a
    ∧ mulhi t.width m a * d + mulhi t.width (lowprod t.width m a) d ≤ 2 ^ t.width - 1

/-- The pairing check passes exactly when m was generated from this d (R167, with R124). -/
def Obligations.PairingCheckAcceptsOnlyItsDivisor : Prop :=
  ∀ (t : Track) (d e : Nat), ValidDivisor t.width e → d < 2 ^ t.width →
    (pairingFails t.width (gen t.width e) d = false ↔ d = e)

/-! ## What each request does -/

/-- R103, R104: the encoding and the response of the multiply-high requests, in every running state; nothing else changes. -/
def Obligations.MultiplyHighResponds : Prop :=
  ∀ s : State, s.fault = none →
    (∀ (x : BitVec 64) (y : BitVec 32),
      decode ⟨0x00#8, x.setWidth 128, y.setWidth 64, 0#64⟩ = .ok (.mulhi32 x y)
      ∧ exec (.mulhi32 x y) s = .next { s with bus := some (BitVec.ofNat 128 (x.toNat * y.toNat / 2 ^ 64)) })
    ∧ ∀ (x : BitVec 128) (y : BitVec 64),
      decode ⟨0x08#8, x, y, 0#64⟩ = .ok (.mulhi64 x y)
      ∧ exec (.mulhi64 x y) s = .next { s with bus := some (BitVec.ofNat 128 (x.toNat * y.toNat / 2 ^ 128)) }

/-- R122, R123: the encoding and the response of the generator for d > 1, and its fault for d <= 1. -/
def Obligations.PrecomputeRespondsOrFaults : Prop :=
  ∀ s : State, s.fault = none →
    (∀ d : BitVec 32,
      decode ⟨0x01#8, 0#128, d.setWidth 64, 0#64⟩ = .ok (.precompute32 d)
      ∧ (1 < d.toNat →
          exec (.precompute32 d) s = .next { s with bus := some (BitVec.ofNat 128 ((2 ^ 64 - 1) / d.toNat + 1)) })
      ∧ (d.toNat ≤ 1 →
          exec (.precompute32 d) s
            = .next { s with fault := some ⟨.divisorLe1, .u32, BitVec.ofNat 64 d.toNat⟩, bus := none }))
    ∧ ∀ d : BitVec 64,
      decode ⟨0x09#8, 0#128, d, 0#64⟩ = .ok (.precompute64 d)
      ∧ (1 < d.toNat →
          exec (.precompute64 d) s = .next { s with bus := some (BitVec.ofNat 128 ((2 ^ 128 - 1) / d.toNat + 1)) })
      ∧ (d.toNat ≤ 1 →
          exec (.precompute64 d) s = .next { s with fault := some ⟨.divisorLe1, .u64, d⟩, bus := none })

/-- R140, R141: the encoding and the response of the quotient requests, for every m (R143). -/
def Obligations.FastDivResponds : Prop :=
  ∀ s : State, s.fault = none →
    (∀ (a : BitVec 32) (m : BitVec 64),
      decode ⟨0x02#8, m.setWidth 128, a.setWidth 64, 0#64⟩ = .ok (.fastDiv32 a m)
      ∧ exec (.fastDiv32 a m) s = .next { s with bus := some (BitVec.ofNat 128 (m.toNat * a.toNat / 2 ^ 64)) })
    ∧ ∀ (a : BitVec 64) (m : BitVec 128),
      decode ⟨0x0A#8, m, a, 0#64⟩ = .ok (.fastDiv64 a m)
      ∧ exec (.fastDiv64 a m) s = .next { s with bus := some (BitVec.ofNat 128 (m.toNat * a.toNat / 2 ^ 128)) }

/-- R161, R162, R165, R167: the encoding and the response of the remainder requests, for every m and d, on a build without the
pairing check or where the check passes, and the fault where the check fails. The build reset leaves has no check. -/
def Obligations.FastModRespondsOrFaults : Prop :=
  State.reset.pairingCheck = false ∧ ∀ s : State, s.fault = none →
    (∀ (a : BitVec 32) (m : BitVec 64) (d : BitVec 32),
      decode ⟨0x03#8, m.setWidth 128, a.setWidth 64, d.setWidth 64⟩ = .ok (.fastMod32 a m d)
      ∧ ((s.pairingCheck = false ∨ (1 < d.toNat ∧ m.toNat = (2 ^ 64 - 1) / d.toNat + 1)) →
          exec (.fastMod32 a m d) s
            = .next { s with bus := some (BitVec.ofNat 128 (m.toNat * a.toNat % 2 ^ 64 * d.toNat / 2 ^ 64)) })
      ∧ (s.pairingCheck = true → ¬ (1 < d.toNat ∧ m.toNat = (2 ^ 64 - 1) / d.toNat + 1) →
          exec (.fastMod32 a m d) s
            = .next { s with fault := some ⟨.pairingMismatch, .u32, BitVec.ofNat 64 d.toNat⟩, bus := none }))
    ∧ ∀ (a : BitVec 64) (m : BitVec 128) (d : BitVec 64),
      decode ⟨0x0B#8, m, a, d⟩ = .ok (.fastMod64 a m d)
      ∧ ((s.pairingCheck = false ∨ (1 < d.toNat ∧ m.toNat = (2 ^ 128 - 1) / d.toNat + 1)) →
          exec (.fastMod64 a m d) s
            = .next { s with bus := some (BitVec.ofNat 128 (m.toNat * a.toNat % 2 ^ 128 * d.toNat / 2 ^ 128)) })
      ∧ (s.pairingCheck = true → ¬ (1 < d.toNat ∧ m.toNat = (2 ^ 128 - 1) / d.toNat + 1) →
          exec (.fastMod64 a m d) s = .next { s with fault := some ⟨.pairingMismatch, .u64, d⟩, bus := none })

/-- R166: the response of a remainder request is below d when d is at least 1, and 0 when d = 0, for every a, m and d; where
the pairing check is built it is so of every response. -/
def Obligations.RemainderIsBounded : Prop :=
  ∀ s : State, s.fault = none →
    (∀ (a : BitVec 32) (m : BitVec 64) (d : BitVec 32),
      (s.pairingCheck = false → ∃ r, exec (.fastMod32 a m d) s = .next { s with bus := some r })
      ∧ ∀ t r, exec (.fastMod32 a m d) s = .next t → t.bus = some r →
          (1 ≤ d.toNat → r.toNat < d.toNat) ∧ (d.toNat = 0 → r = 0#128))
    ∧ ∀ (a : BitVec 64) (m : BitVec 128) (d : BitVec 64),
      (s.pairingCheck = false → ∃ r, exec (.fastMod64 a m d) s = .next { s with bus := some r })
      ∧ ∀ t r, exec (.fastMod64 a m d) s = .next t → t.bus = some r →
          (1 ≤ d.toNat → r.toNat < d.toNat) ∧ (d.toNat = 0 → r = 0#128)

/-- R180, R181: the encoding and the response of the divisibility requests: for m other than 0 the comparison with m - 1, for
m = 0 some boolean. -/
def Obligations.IsMultipleOfResponds : Prop :=
  ∀ s : State, s.fault = none →
    (∀ (n : BitVec 32) (m : BitVec 64),
      decode ⟨0x04#8, m.setWidth 128, n.setWidth 64, 0#64⟩ = .ok (.isMultipleOf32 n m)
      ∧ (m ≠ 0#64 → exec (.isMultipleOf32 n m) s
          = .next { s with bus := some (if m.toNat * n.toNat % 2 ^ 64 ≤ m.toNat - 1 then 1#128 else 0#128) })
      ∧ ∃ (t : Bool) (used : Nat), exec (.isMultipleOf32 n 0#64) s
          = .next { s with bus := some (if t then 1#128 else 0#128), draws := used })
    ∧ ∀ (n : BitVec 64) (m : BitVec 128),
      decode ⟨0x0C#8, m, n, 0#64⟩ = .ok (.isMultipleOf64 n m)
      ∧ (m ≠ 0#128 → exec (.isMultipleOf64 n m) s
          = .next { s with bus := some (if m.toNat * n.toNat % 2 ^ 128 ≤ m.toNat - 1 then 1#128 else 0#128) })
      ∧ ∃ (t : Bool) (used : Nat), exec (.isMultipleOf64 n 0#128) s
          = .next { s with bus := some (if t then 1#128 else 0#128), draws := used }

/-- The response of a divisibility request with m = 0 is the next boolean draw, whatever it is, and the draw is used up, so
that the next such request has a fresh one (after R182). That the draws are numbered is the model's choice (log 5). -/
def Obligations.ZeroConstantDraws : Prop :=
  ∀ s : State, s.fault = none →
    (∀ n : BitVec 32, exec (.isMultipleOf32 n 0#64) s
        = .next { s with bus := some (if Config.drawBool s.draws then 1#128 else 0#128), draws := s.draws + 1 })
    ∧ ∀ n : BitVec 64, exec (.isMultipleOf64 n 0#128) s
        = .next { s with bus := some (if Config.drawBool s.draws then 1#128 else 0#128), draws := s.draws + 1 }

/-- R142: with m = GEN_w(d) for a valid d, the quotient requests answer the integer quotient, for every dividend. -/
def Obligations.QuotientIsExact : Prop :=
  ∀ s : State, s.fault = none →
    (∀ a d : BitVec 32, 2 ≤ d.toNat →
      exec (.fastDiv32 a (BitVec.ofNat 64 (gen 32 d.toNat))) s
        = .next { s with bus := some (BitVec.ofNat 128 (a.toNat / d.toNat)) })
    ∧ ∀ a d : BitVec 64, 2 ≤ d.toNat →
      exec (.fastDiv64 a (BitVec.ofNat 128 (gen 64 d.toNat))) s
        = .next { s with bus := some (BitVec.ofNat 128 (a.toNat / d.toNat)) }

/-- R163: with m = GEN_w(d) for a valid d, the remainder requests answer the integer remainder, for every dividend and on
either build. -/
def Obligations.RemainderIsExact : Prop :=
  ∀ s : State, s.fault = none →
    (∀ a d : BitVec 32, 2 ≤ d.toNat →
      exec (.fastMod32 a (BitVec.ofNat 64 (gen 32 d.toNat)) d) s
        = .next { s with bus := some (BitVec.ofNat 128 (a.toNat % d.toNat)) })
    ∧ ∀ a d : BitVec 64, 2 ≤ d.toNat →
      exec (.fastMod64 a (BitVec.ofNat 128 (gen 64 d.toNat)) d) s
        = .next { s with bus := some (BitVec.ofNat 128 (a.toNat % d.toNat)) }

/-- R183: with m = GEN_w(d) for a valid d, the divisibility requests answer whether d divides n. -/
def Obligations.DivisibilityIsExact : Prop :=
  ∀ s : State, s.fault = none →
    (∀ n d : BitVec 32, 2 ≤ d.toNat →
      exec (.isMultipleOf32 n (BitVec.ofNat 64 (gen 32 d.toNat))) s
        = .next { s with bus := some (if d.toNat ∣ n.toNat then 1#128 else 0#128) })
    ∧ ∀ n d : BitVec 64, 2 ≤ d.toNat →
      exec (.isMultipleOf64 n (BitVec.ofNat 128 (gen 64 d.toNat))) s
        = .next { s with bus := some (if d.toNat ∣ n.toNat then 1#128 else 0#128) }

/-- R68: a response is zero-extended into R above its k bits, k from R65: a word has w bits, a magic constant 2w, a boolean one,
and the boolean is R[0]. -/
def Obligations.ResponseIsZeroExtended : Prop :=
  ∀ (i : Instr) (s t : State) (r : BitVec 128), exec i s = .next t → t.bus = some r →
    match i with
    | .mulhi32 _ _ => r.toNat < 2 ^ 32
    | .precompute32 _ => r.toNat < 2 ^ 64
    | .fastDiv32 _ _ => r.toNat < 2 ^ 32
    | .fastMod32 _ _ _ => r.toNat < 2 ^ 32
    | .isMultipleOf32 _ _ => r = 0#128 ∨ r = 1#128
    | .mulhi64 _ _ => r.toNat < 2 ^ 64
    | .precompute64 _ => r.toNat < 2 ^ 128
    | .fastDiv64 _ _ => r.toNat < 2 ^ 64
    | .fastMod64 _ _ _ => r.toNat < 2 ^ 64
    | .isMultipleOf64 _ _ => r = 0#128 ∨ r = 1#128

/-- R53: a request the block performs completes in that step, with a response or with a fault and never with both. -/
def Obligations.PerformedRequestCompletes : Prop :=
  ∀ (i : Instr) (s : State), s.fault = none →
    ∃ t, exec i s = .next t ∧ ((t.fault = none ∧ ∃ r, t.bus = some r) ∨ ((∃ e, t.fault = some e) ∧ t.bus = none))

/-- A request outside the fault conditions of R200 returns a value: the query units never fail (R144, R168, R185), nor does
`precompute` with d > 1 (R121). -/
def Obligations.HonouredRequestReturnsValue : Prop :=
  ∀ (i : Instr) (s : State), s.fault = none → CannotFault s.pairingCheck i →
    ∃ t r, exec i s = .next t ∧ t.fault = none ∧ t.bus = some r

/-- R200: the only causes of a fault, with the code, the track and the divisor each records, the numbers of the codes, and 0
everywhere while no fault is recorded. -/
def Obligations.OnlyTwoFaultCauses : Prop :=
  (FaultCode.divisorLe1.number = 1#8 ∧ FaultCode.pairingMismatch.number = 2#8)
    ∧ (∀ s : State, s.fault = none → s.faultStatus = 0#16 ∧ s.faultInfo = 0#64)
    ∧ ∀ (i : Instr) (s t : State) (r : FaultRecord), exec i s = .next t → t.fault = some r →
      (∃ d : BitVec 32, i = .precompute32 d ∧ (d = 0#32 ∨ d = 1#32) ∧ r = ⟨.divisorLe1, .u32, d.setWidth 64⟩)
      ∨ (∃ d : BitVec 64, i = .precompute64 d ∧ (d = 0#64 ∨ d = 1#64) ∧ r = ⟨.divisorLe1, .u64, d⟩)
      ∨ (∃ a m, ∃ d : BitVec 32, i = .fastMod32 a m d ∧ s.pairingCheck = true ∧ (d.toNat ≤ 1 ∨ gen 32 d.toNat ≠ m.toNat)
          ∧ r = ⟨.pairingMismatch, .u32, d.setWidth 64⟩)
      ∨ (∃ a m, ∃ d : BitVec 64, i = .fastMod64 a m d ∧ s.pairingCheck = true ∧ (d.toNat ≤ 1 ∨ gen 64 d.toNat ≠ m.toNat)
          ∧ r = ⟨.pairingMismatch, .u64, d⟩)

/-- The frame of every request (R44, R201): no caller's list, position or variable changes when the block performs it, the build
and the order of service do not, the fault record changes only by a fault, and a draw is used up only by a draw. -/
def Obligations.RequestFrame : Prop :=
  ∀ (i : Instr) (s t : State), exec i s = .next t →
    t.callers = s.callers ∧ t.pairingCheck = s.pairingCheck ∧ t.grants = s.grants ∧ t.picks = s.picks
    ∧ (CannotFault s.pairingCheck i → t.fault = s.fault)
    ∧ (NoDraw i → t.draws = s.draws) ∧ (¬ NoDraw i → t.draws = s.draws + 1)

/-- The outcome of a request is a function of its operands and the build alone (R20, R44), but for a draw: in every running
state it answers the same response or the same fault. -/
def Obligations.ResponseIgnoresState : Prop :=
  ∀ (check : Bool) (i : Instr), NoDraw i →
    ∃ bus fault, ∀ s : State, s.fault = none → s.pairingCheck = check →
      exec i s = .next { s with bus := bus, fault := fault }

/-! ## The machine -/

/-- A step performs the request that the line of the caller served spells, and delivers its response (R29, R44, R45). -/
def Obligations.StepPerformsTheLine : Prop :=
  ∀ (s t u : State) (c : Nat) (k : Caller) (l : Line) (i : Instr), s.refusal = none → s.fault = none →
    s.choose = some (c, t) → t.nextLine c = some (k, l) → lineInstr k.vars l = .ok i → exec i t = .next u →
    step s = .next (u.deliver c l.dest (opKind i.op))

/-- The instruction whose bits are placed is the one the next step performs, its response delivered under the name `r` (the
placing is the model's, log 1). -/
def Obligations.PlacedWordIsPerformed : Prop :=
  ∀ (s u : State) (nbits w : Nat) (i : Instr), decodeTableWord nbits w = some i →
    exec i (s.withFetchWord nbits w) = .next u →
    step (s.withFetchWord nbits w) = .next (u.deliver 0 (some ['r']) (opKind i.op))

/-- What a step changes among the callers (R29, R30): one caller that had a request ready is served, every other is as before;
of the one served the list stays; a response moves its position by one and writes only the variable its line names, and after
a fault it is as before. The number of callers and the build stay. -/
def Obligations.StepFrame : Prop :=
  ∀ s t : State, step s = .next t →
    t.callers.length = s.callers.length ∧ t.pairingCheck = s.pairingCheck ∧ t.bus = none
    ∧ ∃ (c : Nat) (k : Caller) (l : Line) (k' : Caller), s.callers[c]? = some k ∧ k.prog[k.pos]? = some l ∧ t.callers[c]? = some k'
      ∧ (∀ e, e ≠ c → t.callers[e]? = s.callers[e]?)
      ∧ k'.prog = k.prog
      ∧ (t.fault = none → k'.pos = k.pos + 1 ∧ (∀ name, l.dest ≠ some name → getName name k'.vars = getName name k.vars)
          ∧ ∀ name, l.dest = some name → ∃ v, getName name k'.vars = some v)
      ∧ (t.fault ≠ none → k' = k)

/-- R201: a request that raises a fault writes VALID, CODE, W (its track bit) and DIVISOR (its zero-extended d) and nothing
else; the step it is performed in returns no response (no variable is written) and changes no caller. -/
def Obligations.FaultEntryWritesOnlyTheRecord : Prop :=
  (∀ (i : Instr) (s u : State) (r : FaultRecord), exec i s = .next u → u.fault = some r →
    u = { s with fault := some r, bus := none } ∧ r.track = i.op.track
    ∧ r.divisor = (if i.op.func = .precompute then (encode i).y else (encode i).z))
  ∧ ∀ (s t : State) (r : FaultRecord), step s = .next t → t.fault = some r →
    s.fault = none ∧ t.callers = s.callers ∧ t.bus = none ∧ t.pairingCheck = s.pairingCheck ∧ t.draws = s.draws
    ∧ t.faultStatus = (r.code.number.setWidth 16 <<< 8) ||| ((r.track.bit.setWidth 16) <<< 1) ||| 1#16
    ∧ t.faultInfo = r.divisor

/-- R202: while a fault is recorded no request is performed and no step is made, for any caller; the state is not final and has
no observation; so no run clears the record. -/
def Obligations.FaultStopsTheBlock : Prop :=
  ∀ (s : State) (r : FaultRecord), s.fault = some r →
    (∀ i, exec i s = .fault .blockStopped) ∧ (∀ t, step s ≠ .next t)
    ∧ (s.refusal = none → step s = .fault .blockStopped) ∧ s.final = false ∧ s.observe = none

/-- R250: a launch is final exactly when every caller has performed every request of its program and VALID = 0; its
observation is every caller's host variables and the fault registers, and a launch that is not final has none. Of admitted
programs, the step says `launchFinal` exactly there (log 12). -/
def Obligations.FinalLaunchHasNoStep : Prop :=
  ∀ s : State,
    (s.final = true ↔ ((∀ k ∈ s.callers, k.prog.length ≤ k.pos) ∧ s.fault = none))
    ∧ (s.final = true → s.observe = some (s.callers.map Caller.vars, s.faultStatus, s.faultInfo))
    ∧ (s.final = false → s.observe = none)
    ∧ (s.refusal = none →
        (step s = .fault .launchFinal ↔ ((∀ k ∈ s.callers, k.prog.length ≤ k.pos) ∧ s.fault = none)))

/-- Every step performs one request: without a fault one request fewer is left (R45, R249), with one the number stays (R29). -/
def Obligations.StepPerformsOneRequest : Prop :=
  ∀ s t : State, step s = .next t →
    (t.fault = none → t.remaining + 1 = s.remaining) ∧ (t.fault ≠ none → t.remaining = s.remaining ∧ 1 ≤ s.remaining)

/-- Every launch ends: from any state, no run is longer than the requests that are left (R249). -/
def Obligations.EveryRunEnds : Prop :=
  ∀ s t : State, Sys2Proof.core.run (s.remaining + 1) s ≠ .next t

/-- The caller a step serves has a request ready (R45), and every caller that has one can be the one served: some choice of the
order of service picks it (R45: any interleaving). -/
def Obligations.AnyReadyCallerMayBeServed : Prop :=
  (∀ (s t : State) (c : Nat), s.choose = some (c, t) → s.isReady c = true
      ∧ t = { s with grants := t.grants, picks := t.picks })
    ∧ ∀ (s : State) (c : Nat), s.isReady c = true → ∃ g t, State.choose { s with grants := g } = some (c, t)

/-- Two requests of different callers may be performed in either order, with the same state after both, unless one faults or
draws (R46). -/
def Obligations.RequestsOfCallersCommute : Prop :=
  ∀ (s t u : State) (c e : Nat), c ≠ e → s.performNext c = .next t → s.performNext e = .next u →
    t.fault = none → u.fault = none → t.draws = s.draws → u.draws = s.draws →
    ∃ v, t.performNext e = .next v ∧ u.performNext c = .next v

/-- The invariant of a launch holds in the reset state (R240). -/
def Obligations.ResetSatisfiesInvariant : Prop :=
  State.reset.Inv

/-- The invariant of a launch holds when it begins (R242, R206). -/
def Obligations.LaunchSatisfiesInvariant : Prop :=
  ∀ check progs s, launch check progs = .next s → s.Inv

/-- Every step keeps the invariant of a launch: an empty result bus (R30), a sound fault record (R24, R200), admitted programs,
variables as the performed lines wrote them (R29). -/
def Obligations.StepKeepsInvariant : Prop :=
  ∀ s t : State, s.Inv → step s = .next t → t.Inv

/-- A program that was admitted is never refused later (R206: refusals are all before the launch): from every state of the
invariant the step performs a request unless the block is stopped or the launch is final. -/
def Obligations.AdmittedLaunchNeverRefused : Prop :=
  ∀ s : State, s.Inv →
    (∃ t, step s = .next t) ∨ (step s = .fault .blockStopped ∧ s.stopped = true)
      ∨ (step s = .fault .launchFinal ∧ s.final = true)

/-! ## The host's side (20_memory.md R43) -/

/-- A bus value a host serialises in either byte order reads back as itself; byte j of the little-endian order is byte j of the
value counted from its least significant one, and the big-endian order is its reverse (R43: the order is an argument). -/
def Obligations.SerialisedValueReadsBack : Prop :=
  (∀ (order : Config.ByteOrder) (n v : Nat), v < 256 ^ n →
    (serialise order n v).length = n ∧ deserialise order (serialise order n v) = v)
  ∧ (∀ n v j : Nat, j < n → (serialise .little n v)[j]? = some (BitVec.ofNat 8 (v / 256 ^ j % 256)))
  ∧ ∀ n v : Nat, serialise .big n v = (serialise .little n v).reverse

/-! ## What a caller receives, and which programs run -/

/-- A host variable receives the whole response (R29, R73: "its full response value"). The k bits a caller takes from the
result bus, k from R65, are the number on it; and a step that performs a request leaves, under the name its line gives, a value
of that kind with the number that the request answers. -/
def Obligations.StepWritesTheResponse : Prop :=
  (∀ (i : Instr) (s u : State) (r : BitVec 128), exec i s = .next u → u.bus = some r →
    ((opKind i.op).ofBus r).toNat = r.toNat ∧ ((opKind i.op).ofBus r).kind = opKind i.op
    ∧ (opKind i.op).width = (match i.op.func with
        | .mulhi => i.op.track.width
        | .precompute => 2 * i.op.track.width
        | .fastDiv => i.op.track.width
        | .fastMod => i.op.track.width
        | .isMultipleOf => 1))
  ∧ ∀ s t : State, step s = .next t → t.fault = none →
    ∃ (c : Nat) (k : Caller) (l : Line) (i : Instr) (u : State) (r : BitVec 128) (k' : Caller),
      s.callers[c]? = some k ∧ k.prog[k.pos]? = some l ∧ lineInstr k.vars l = .ok i
      ∧ exec i s = .next u ∧ u.bus = some r
      ∧ t.callers[c]? = some k' ∧ k'.pos = k.pos + 1
      ∧ ∀ name, l.dest = some name → ∃ v, getName name k'.vars = some v ∧ v.toNat = r.toNat ∧ v.kind = opKind i.op

/-- A program is launched where nothing of R206 refuses it: for every list of callers' programs that the grammar can spell,
whose bus tuples decode, whose literals fit and whose host variables are assigned before and fit by their width. -/
def Obligations.WellFormedProgramsAreLaunched : Prop :=
  ∀ (check : Bool) (progs : List Program), progs ≠ [] → (∀ p ∈ progs, ProgramFits p) →
    launch check progs = .next { State.reset with callers := progs.map Caller.start, pairingCheck := check }

/-- A host variable whose value the text determines fits its operand by that value, whatever its width (R77): a 64-bit quotient
is admitted as the divisor of `precompute.u32` exactly when it is below 2^32; and of any line that comes last, after lines and
callers that are admitted, one such variable too large for its operand is `ILL_FORMED`, and where every operand is such a
variable or a literal, and each value fits, the launch begins. That the value decides is the model's reading, and what the text
determines is the model's forecast (log 7). -/
def Obligations.VariableFitsByValue : Prop :=
  (∀ (check : Bool) (a m : Nat), a < 2 ^ 64 → m < 2 ^ 128 →
    let p : Program := [⟨some ['q'], .call ⟨.fastDiv, .u64⟩ [.lit a, .lit m]⟩,
      ⟨some ['r'], .call ⟨.precompute, .u32⟩ [.var ['q']]⟩]
    (m * a / 2 ^ 128 < 2 ^ 32 →
      launch check [p] = .next { State.reset with callers := [Caller.start p], pairingCheck := check })
    ∧ (2 ^ 32 ≤ m * a / 2 ^ 128 → launch check [p] = .refused .illFormed))
  ∧ ∀ (check : Bool) (callers : List Program) (before : Program) dest op args s,
    launch check (callers ++ [before]) = .next s → (⟨dest, .call op args⟩ : Line).ok = true →
    let progs : List Program := callers ++ [before ++ [⟨dest, .call op args⟩]]
    let determined (name : Ident) (v : Value) : Prop :=
      ∃ f, getName name (forecastProgram check [] before) = some f ∧ f.value = some v
    (∀ (j : Nat) (b : Bus) name v, op.func.slots[j]? = some b → args[j]? = some (.var name) → determined name v →
      2 ^ b.width op.track ≤ v.toNat → launch check progs = .refused .illFormed)
    ∧ ((∀ (j : Nat) (b : Bus) (a : Arg), op.func.slots[j]? = some b → args[j]? = some a →
          (∃ n, a = .lit n ∧ n < 2 ^ b.width op.track)
            ∨ ∃ name v, a = .var name ∧ determined name v ∧ v.toNat < 2 ^ b.width op.track) →
        launch check progs = .next { State.reset with callers := progs.map Caller.start, pairingCheck := check })
end

