-- ==== Sys2Proof/Laws/Decode.lean ====
section
/-! SUPPORT. What the decoder answers, said once: a request decodes exactly when its command word is legal and its unread bits
are 0, and then to the operands its buses carry. -/

namespace Sys2Proof

theorem decode_ok {r : Request} {i : Instr} (h : decode r = .ok i) :
    ∃ op, decodeCommand r.cmd = some op ∧ r.unreadBitsZero op = true ∧ i = r.operandsOf op := by
  unfold decode at h
  split at h
  · cases h
  · rename_i op hop
    split at h
    · cases h
      exact ⟨op, hop, ‹_›, rfl⟩
    · cases h

theorem decode_of_op {r : Request} {op : Op} (h : decodeCommand r.cmd = some op) (hz : r.unreadBitsZero op = true) :
    decode r = .ok (r.operandsOf op) := by
  simp [decode, h, hz]

/-- The command word of a mnemonic decodes to it. -/
theorem decodeCommand_command (op : Op) : decodeCommand op.command = some op := by
  obtain ⟨f, t⟩ := op
  cases f <;> cases t <;> decide

/-- The typed request of an operation names that operation. -/
theorem operandsOf_op (r : Request) (op : Op) : (r.operandsOf op).op = op := by
  obtain ⟨f, t⟩ := op
  cases f <;> cases t <;> rfl

end Sys2Proof
end

