-- ==== Sys2Proof/Laws/State.lean ====
section
/-! SUPPORT. One lemma per field per update of the state, so that no proof unfolds a record update. -/

namespace Sys2Proof.Machine

variable (s : State)

@[simp] theorem State.respond_fault (v : Nat) : (s.respond v).fault = s.fault := rfl

@[simp] theorem State.respond_bus (v : Nat) : (s.respond v).bus = some (BitVec.ofNat 128 v) := rfl

@[simp] theorem State.respond_callers (v : Nat) : (s.respond v).callers = s.callers := rfl

@[simp] theorem State.respond_pairingCheck (v : Nat) : (s.respond v).pairingCheck = s.pairingCheck := rfl

@[simp] theorem State.respond_draws (v : Nat) : (s.respond v).draws = s.draws := rfl

@[simp] theorem State.respond_grants (v : Nat) : (s.respond v).grants = s.grants := rfl

@[simp] theorem State.respond_picks (v : Nat) : (s.respond v).picks = s.picks := rfl

@[simp] theorem State.raiseFault_fault (code : FaultCode) (t : Track) (d : BitVec 64) : (s.raiseFault code t d).fault = some ⟨code, t, d⟩ := rfl

@[simp] theorem State.raiseFault_bus (code : FaultCode) (t : Track) (d : BitVec 64) : (s.raiseFault code t d).bus = none := rfl

@[simp] theorem State.raiseFault_callers (code : FaultCode) (t : Track) (d : BitVec 64) : (s.raiseFault code t d).callers = s.callers := rfl

@[simp] theorem State.raiseFault_pairingCheck (code : FaultCode) (t : Track) (d : BitVec 64) : (s.raiseFault code t d).pairingCheck = s.pairingCheck := rfl

@[simp] theorem State.raiseFault_draws (code : FaultCode) (t : Track) (d : BitVec 64) : (s.raiseFault code t d).draws = s.draws := rfl

@[simp] theorem State.raiseFault_grants (code : FaultCode) (t : Track) (d : BitVec 64) : (s.raiseFault code t d).grants = s.grants := rfl

@[simp] theorem State.raiseFault_picks (code : FaultCode) (t : Track) (d : BitVec 64) : (s.raiseFault code t d).picks = s.picks := rfl

@[simp] theorem State.respondDraw_fault : (s.respondDraw).fault = s.fault := rfl

@[simp] theorem State.respondDraw_bus : (s.respondDraw).bus = some (boolBus (Config.drawBool s.draws)) := rfl

@[simp] theorem State.respondDraw_callers : (s.respondDraw).callers = s.callers := rfl

@[simp] theorem State.respondDraw_pairingCheck : (s.respondDraw).pairingCheck = s.pairingCheck := rfl

@[simp] theorem State.respondDraw_draws : (s.respondDraw).draws = s.draws + 1 := rfl

@[simp] theorem State.respondDraw_grants : (s.respondDraw).grants = s.grants := rfl

@[simp] theorem State.respondDraw_picks : (s.respondDraw).picks = s.picks := rfl

@[simp] theorem State.respondBool_fault (t : Bool) : (s.respondBool t).fault = s.fault := rfl

@[simp] theorem State.respondBool_bus (t : Bool) : (s.respondBool t).bus = some (boolBus t) := rfl

@[simp] theorem State.respondBool_callers (t : Bool) : (s.respondBool t).callers = s.callers := rfl

@[simp] theorem State.respondBool_pairingCheck (t : Bool) : (s.respondBool t).pairingCheck = s.pairingCheck := rfl

@[simp] theorem State.respondBool_draws (t : Bool) : (s.respondBool t).draws = s.draws := rfl

@[simp] theorem State.respondBool_grants (t : Bool) : (s.respondBool t).grants = s.grants := rfl

@[simp] theorem State.respondBool_picks (t : Bool) : (s.respondBool t).picks = s.picks := rfl

@[simp] theorem State.withFetchWord_fault (nbits w : Nat) : (s.withFetchWord nbits w).fault = s.fault := rfl

@[simp] theorem State.withFetchWord_bus (nbits w : Nat) : (s.withFetchWord nbits w).bus = s.bus := rfl

@[simp] theorem State.withFetchWord_callers (nbits w : Nat) : (s.withFetchWord nbits w).callers = [Caller.start (oneRequest (tableRequest nbits w))] := rfl

@[simp] theorem State.withFetchWord_pairingCheck (nbits w : Nat) : (s.withFetchWord nbits w).pairingCheck = s.pairingCheck := rfl

@[simp] theorem State.withFetchWord_draws (nbits w : Nat) : (s.withFetchWord nbits w).draws = s.draws := rfl

@[simp] theorem State.withFetchWord_grants (nbits w : Nat) : (s.withFetchWord nbits w).grants = s.grants := rfl

@[simp] theorem State.withFetchWord_picks (nbits w : Nat) : (s.withFetchWord nbits w).picks = s.picks := rfl

@[simp] theorem State.reset_fault : State.reset.fault = none := rfl

@[simp] theorem State.reset_bus : State.reset.bus = none := rfl

@[simp] theorem State.reset_callers : State.reset.callers = [] := rfl

@[simp] theorem State.reset_pairingCheck : State.reset.pairingCheck = false := rfl

@[simp] theorem State.reset_draws : State.reset.draws = 0 := rfl

@[simp] theorem State.reset_grants : State.reset.grants = [] := rfl

@[simp] theorem State.reset_picks : State.reset.picks = 0 := rfl

@[simp] theorem Caller.start_prog (p : Program) : (Caller.start p).prog = p := rfl

@[simp] theorem Caller.start_pos (p : Program) : (Caller.start p).pos = 0 := rfl

@[simp] theorem Caller.start_vars (p : Program) : (Caller.start p).vars = [] := rfl

@[simp] theorem Caller.receive_prog (k : Caller) (dest : Option Ident) (v : Value) : (k.receive dest v).prog = k.prog := rfl

@[simp] theorem Caller.receive_pos (k : Caller) (dest : Option Ident) (v : Value) :
    (k.receive dest v).pos = k.pos + 1 := rfl

@[simp] theorem Caller.receive_vars (k : Caller) (dest : Option Ident) (v : Value) :
    (k.receive dest v).vars = setDest dest v k.vars := rfl

@[simp] theorem State.deliver_fault (c : Nat) (dest : Option Ident) (k : Kind) : (s.deliver c dest k).fault = s.fault := by
  unfold State.deliver
  split <;> rfl

@[simp] theorem State.deliver_pairingCheck (c : Nat) (dest : Option Ident) (k : Kind) : (s.deliver c dest k).pairingCheck = s.pairingCheck := by
  unfold State.deliver
  split <;> rfl

@[simp] theorem State.deliver_draws (c : Nat) (dest : Option Ident) (k : Kind) : (s.deliver c dest k).draws = s.draws := by
  unfold State.deliver
  split <;> rfl

@[simp] theorem State.deliver_grants (c : Nat) (dest : Option Ident) (k : Kind) : (s.deliver c dest k).grants = s.grants := by
  unfold State.deliver
  split <;> rfl

@[simp] theorem State.deliver_picks (c : Nat) (dest : Option Ident) (k : Kind) : (s.deliver c dest k).picks = s.picks := by
  unfold State.deliver
  split <;> rfl

@[simp] theorem State.deliver_bus (c : Nat) (dest : Option Ident) (k : Kind) : (s.deliver c dest k).bus = none := by
  unfold State.deliver
  split
  · assumption
  · rfl

/-- Where a response is on the bus, the caller served receives it. -/
theorem State.deliver_callers_of_some (c : Nat) (dest : Option Ident) (k : Kind) (r : BitVec 128) (h : s.bus = some r) :
    (s.deliver c dest k).callers = s.callers.modify c fun a => a.receive dest (k.ofBus r) := by
  simp [State.deliver, h]

/-- Where none is, because the request faulted, no caller changes. -/
theorem State.deliver_callers_of_none (c : Nat) (dest : Option Ident) (k : Kind) (h : s.bus = none) :
    (s.deliver c dest k).callers = s.callers := by
  simp [State.deliver, h]

end Sys2Proof.Machine
end

