-- ==== Sys2Proof/Laws/Ops.lean ====
section
/-! SUPPORT. What each shared operation can do, said once: the running check, the names of host variables, the order of
service, the width of what goes on the result bus. -/

namespace Sys2Proof.Machine

/-! ## The running check -/

theorem State.whenRunning_of_running {s : State} (h : s.fault = none) (t : State) : s.whenRunning t = .next t := by
  simp [State.whenRunning, h]

theorem State.whenRunning_of_stopped {s : State} {r : FaultRecord} (h : s.fault = some r) (t : State) :
    s.whenRunning t = .fault .blockStopped := by
  simp [State.whenRunning, h]

/-- A request that answers a next state was performed by a running block, and the state is the one its effect gives. -/
theorem State.whenRunning_next {s t u : State} (h : s.whenRunning t = .next u) : s.fault = none ∧ u = t := by
  unfold State.whenRunning at h
  split at h
  · cases h
  · cases h
    exact ⟨‹_›, rfl⟩

/-- The running check never refuses. -/
theorem State.whenRunning_ne_refused (s t : State) (r : Refusal) : s.whenRunning t ≠ .refused r := by
  unfold State.whenRunning
  split <;> exact fun h => by cases h

/-! ## Names of host variables -/

theorem getName_setName_self {α : Type} (name : Ident) (v : α) (l : List (Ident × α)) :
    getName name (setName name v l) = some v := by
  induction l with
  | nil => simp [setName, getName]
  | cons e l ih =>
    obtain ⟨n, u⟩ := e
    by_cases h : n = name
    · simp [setName, getName, h]
    · simp [setName, getName, h, ih]

theorem getName_setName_ne {α : Type} {name other : Ident} (h : other ≠ name) (v : α) (l : List (Ident × α)) :
    getName other (setName name v l) = getName other l := by
  induction l with
  | nil => simp [setName, getName, Ne.symm h]
  | cons e l ih =>
    obtain ⟨n, u⟩ := e
    by_cases hn : n = name
    · simp [setName, getName, hn, Ne.symm h]
    · by_cases ho : n = other
      · simp [setName, getName, ho, h]
      · simp [setName, getName, hn, ho, ih]

/-- What reads after a response reached its destination. -/
theorem getName_setDest {α : Type} (dest : Option Ident) (name : Ident) (v : α) (l : List (Ident × α)) :
    getName name (setDest dest v l) = if dest = some name then some v else getName name l := by
  cases dest with
  | none => simp [setDest]
  | some d =>
    by_cases h : d = name
    · simp [setDest, h, getName_setName_self]
    · simp [setDest, h, getName_setName_ne (Ne.symm h)]

/-- Writing keeps the canonical form of the variables: each name at most once. -/
theorem setName_nodup {α : Type} (name : Ident) (v : α) (l : List (Ident × α)) (h : (l.map Prod.fst).Nodup) :
    ((setName name v l).map Prod.fst).Nodup := by
  have mem : ∀ (l : List (Ident × α)) (n : Ident), n ∈ (setName name v l).map Prod.fst → n = name ∨ n ∈ l.map Prod.fst := by
    intro l
    induction l with
    | nil => simp [setName]
    | cons e l ih =>
      obtain ⟨n, u⟩ := e
      intro k hk
      by_cases hn : n = name
      · simp [setName, hn] at hk
        rcases hk with rfl | hk
        · exact .inl rfl
        · exact .inr (by simp; exact .inr hk)
      · simp only [setName, hn, if_false, List.map_cons, List.mem_cons] at hk
        rcases hk with rfl | hk
        · exact .inr (by simp)
        · rcases ih k hk with h | h
          · exact .inl h
          · exact .inr (by simp only [List.map_cons, List.mem_cons]; exact .inr h)
  induction l with
  | nil => simp [setName]
  | cons e l ih =>
    obtain ⟨n, u⟩ := e
    simp only [List.map_cons, List.nodup_cons] at h
    by_cases hn : n = name
    · simp only [setName, hn, if_true, List.map_cons, List.nodup_cons]
      exact ⟨hn ▸ h.1, h.2⟩
    · simp only [setName, hn, if_false, List.map_cons, List.nodup_cons]
      refine ⟨fun hk => ?_, ih h.2⟩
      rcases mem l n hk with hk | hk
      · exact hn hk
      · exact h.1 hk

/-! ## The order of service -/

theorem State.mem_readyCallers {s : State} {c : Nat} : c ∈ s.readyCallers ↔ s.isReady c = true := by
  simp only [State.readyCallers, List.mem_filter, List.mem_range, and_iff_right_iff_imp]
  intro h
  unfold State.isReady at h
  split at h
  · cases h
  · exact (List.getElem?_eq_some_iff.mp ‹_›).1

/-- A ready caller has a next line. -/
theorem State.nextLine_of_isReady {s : State} {c : Nat} (h : s.isReady c = true) :
    ∃ k l, s.callers[c]? = some k ∧ k.prog[k.pos]? = some l ∧ s.nextLine c = some (k, l) := by
  unfold State.isReady at h
  split at h
  · cases h
  · rename_i k hk
    simp only [Caller.ready, decide_eq_true_eq] at h
    exact ⟨k, k.prog[k.pos], hk, List.getElem?_eq_getElem h, by simp [State.nextLine, hk, List.getElem?_eq_getElem h]⟩

/-- A caller with a next line exists, and the line is the one at its position. -/
theorem State.nextLine_some {s : State} {c : Nat} {k : Caller} {l : Line} (h : s.nextLine c = some (k, l)) :
    s.callers[c]? = some k ∧ k.prog[k.pos]? = some l := by
  unfold State.nextLine at h
  split at h
  · cases h
  · split at h
    · cases h
    · cases h
      exact ⟨‹_›, ‹_›⟩

/-- No caller is served exactly when none has a request ready. -/
theorem State.choose_eq_none {s : State} : s.choose = none ↔ s.readyCallers = [] := by
  unfold State.choose
  split
  · simp_all
  · simp_all
  · split <;> simp_all

/-! ## What goes on the result bus -/

theorem mulhi_lt {w x y k : Nat} (hx : x < 2 ^ (2 * w)) (hy : y < 2 ^ k) : mulhi w x y < 2 ^ k := by
  refine Nat.div_lt_of_lt_mul ?_
  exact Nat.mul_lt_mul_of_lt_of_le hx (Nat.le_of_lt hy) (Nat.two_pow_pos k)

theorem lowprod_lt (w m a : Nat) : lowprod w m a < 2 ^ (2 * w) :=
  Nat.mod_lt _ (Nat.two_pow_pos _)

theorem boolBus_eq (t : Bool) : boolBus t = 0#128 ∨ boolBus t = 1#128 := by
  cases t <;> simp [boolBus]

end Sys2Proof.Machine
end

