-- ==== Sys2Proof/Laws/Exec.lean ====
section
/-! SUPPORT. The meanings: each as a next state of a running block, and together what a performed request can do. -/

namespace Sys2Proof.Machine

/-- What a request does to a running block, as one function of the state: the effect its meaning hands to the running
check. -/
def effect (i : Instr) (s : State) : State :=
  match i with
  | .mulhi32 x y => s.respond (mulhi 32 x.toNat y.toNat)
  | .precompute32 d => s.generate .u32 (d.setWidth 64)
  | .fastDiv32 a m => s.respond (mulhi 32 m.toNat a.toNat)
  | .fastMod32 a m d => s.remainder .u32 a.toNat m.toNat (d.setWidth 64)
  | .isMultipleOf32 n m => s.testMultiple 32 n.toNat m.toNat
  | .mulhi64 x y => s.respond (mulhi 64 x.toNat y.toNat)
  | .precompute64 d => s.generate .u64 d
  | .fastDiv64 a m => s.respond (mulhi 64 m.toNat a.toNat)
  | .fastMod64 a m d => s.remainder .u64 a.toNat m.toNat d
  | .isMultipleOf64 n m => s.testMultiple 64 n.toNat m.toNat

theorem exec_eq (i : Instr) (s : State) : exec i s = s.whenRunning (effect i s) := by
  cases i <;> rfl

theorem exec_of_running (i : Instr) {s : State} (h : s.fault = none) : exec i s = .next (effect i s) := by
  rw [exec_eq, State.whenRunning_of_running h]

/-- A request that answers a next state was performed by a running block. -/
theorem exec_next {i : Instr} {s t : State} (h : exec i s = .next t) : s.fault = none ∧ t = effect i s :=
  State.whenRunning_next (exec_eq i s ▸ h)

theorem exec_ne_refused (i : Instr) (s : State) (r : Refusal) : exec i s ≠ .refused r :=
  exec_eq i s ▸ State.whenRunning_ne_refused _ _ _

/-- The one divisor check of the generator. -/
theorem State.generate_of_le_one {s : State} {t : Track} {d : BitVec 64} (h : d.toNat ≤ 1) :
    s.generate t d = s.raiseFault .divisorLe1 t d := by
  simp [State.generate, h]

theorem State.generate_of_one_lt {s : State} {t : Track} {d : BitVec 64} (h : 1 < d.toNat) :
    s.generate t d = s.respond (gen t.width d.toNat) := by
  simp [State.generate, Nat.not_le.mpr h]

/-- The remainder unit on a build without the pairing check, or where the check passes. -/
theorem State.remainder_of_passes {s : State} {t : Track} {a m : Nat} {d : BitVec 64}
    (h : s.pairingCheck = false ∨ pairingFails t.width m d.toNat = false) :
    s.remainder t a m d = s.respond (mulhi t.width (lowprod t.width m a) d.toNat) := by
  rcases h with h | h <;> simp [State.remainder, h]

theorem State.remainder_of_fails {s : State} {t : Track} {a m : Nat} {d : BitVec 64} (hc : s.pairingCheck = true)
    (h : pairingFails t.width m d.toNat = true) : s.remainder t a m d = s.raiseFault .pairingMismatch t d := by
  simp [State.remainder, hc, h]

/-- The pairing check fails for d <= 1 and for an m not generated from d. -/
theorem pairingFails_iff {w m d : Nat} : pairingFails w m d = true ↔ d ≤ 1 ∨ gen w d ≠ m := by
  simp [pairingFails]

/-- The pairing check passes for a divisor above 1 and the m generated from it. -/
theorem pairingPasses_iff {w m d : Nat} : pairingFails w m d = false ↔ 1 < d ∧ gen w d = m := by
  simp [pairingFails]

/-- The divisibility test is the comparison of the low product with m - 1. -/
theorem divides_iff {w m n : Nat} : divides w m n = true ↔ lowprod w m n ≤ m - 1 := by
  simp [divides]

/-- Everything a performed request can do: answer a value, answer a draw, or raise a fault. -/
theorem effect_cases (i : Instr) (s : State) :
    (∃ r, effect i s = { s with bus := some r }) ∨ effect i s = s.respondDraw
      ∨ ∃ code t d, effect i s = s.raiseFault code t d := by
  have hg : ∀ t d, (∃ r, s.generate t d = { s with bus := some r }) ∨ ∃ code t' d', s.generate t d = s.raiseFault code t' d' := by
    intro t d
    unfold State.generate
    split
    · exact .inr ⟨_, _, _, rfl⟩
    · exact .inl ⟨_, rfl⟩
  have hr : ∀ t a m d, (∃ r, s.remainder t a m d = { s with bus := some r })
      ∨ ∃ code t' d', s.remainder t a m d = s.raiseFault code t' d' := by
    intro t a m d
    unfold State.remainder
    split
    · exact .inr ⟨_, _, _, rfl⟩
    · exact .inl ⟨_, rfl⟩
  have ht : ∀ w n m, (∃ r, s.testMultiple w n m = { s with bus := some r }) ∨ s.testMultiple w n m = s.respondDraw := by
    intro w n m
    unfold State.testMultiple
    split
    · exact .inr rfl
    · exact .inl ⟨_, rfl⟩
  cases i with
  | mulhi32 x y => exact .inl ⟨_, rfl⟩
  | mulhi64 x y => exact .inl ⟨_, rfl⟩
  | fastDiv32 a m => exact .inl ⟨_, rfl⟩
  | fastDiv64 a m => exact .inl ⟨_, rfl⟩
  | precompute32 d => exact (hg .u32 (d.setWidth 64)).imp id .inr
  | precompute64 d => exact (hg .u64 d).imp id .inr
  | fastMod32 a m d => exact (hr .u32 a.toNat m.toNat (d.setWidth 64)).imp id .inr
  | fastMod64 a m d => exact (hr .u64 a.toNat m.toNat d).imp id .inr
  | isMultipleOf32 n m => exact (ht 32 n.toNat m.toNat).imp id .inl
  | isMultipleOf64 n m => exact (ht 64 n.toNat m.toNat).imp id .inl

end Sys2Proof.Machine
end

