-- ==== Sys2Proof/Laws/Launch.lean ====
section
/-! SUPPORT. The values of host variables and the admission of programs: what each can answer, said once. -/

namespace Sys2Proof.Machine

/-! ## Host variables as numbers -/

/-- A value is below two to the width of its kind. -/
theorem Value.toNat_lt (v : Value) : v.toNat < 2 ^ v.kind.width := by
  cases v with
  | word32 v => exact v.isLt
  | word64 v => exact v.isLt
  | precomputed32 m => exact m.isLt
  | precomputed64 m => exact m.isLt
  | boolean b => cases b <;> decide

@[simp] theorem Kind.ofBus_kind (k : Kind) (r : BitVec 128) : (k.ofBus r).kind = k := by
  cases k with
  | word t => cases t <;> rfl
  | precomputed t => cases t <;> rfl
  | boolean => rfl

/-- A response that is zero above its width reaches its host variable whole. -/
theorem Kind.ofBus_toNat {k : Kind} {r : BitVec 128} (h : r.toNat < 2 ^ k.width) : (k.ofBus r).toNat = r.toNat := by
  have cut : ∀ n, r.toNat < 2 ^ n → (r.setWidth n).toNat = r.toNat := fun n hn => by
    rw [BitVec.toNat_setWidth, Nat.mod_eq_of_lt hn]
  cases k with
  | word t => cases t <;> exact cut _ h
  | precomputed t =>
    cases t
    · exact cut _ h
    · rfl
  | boolean =>
    have hr : r.toNat = 0 ∨ r.toNat = 1 := by
      have h1 : r.toNat < 2 := h
      omega
    rcases hr with h0 | h1
    · have hr : r = 0#128 := BitVec.eq_of_toNat_eq h0
      subst hr
      rfl
    · have hr : r = 1#128 := BitVec.eq_of_toNat_eq h1
      subst hr
      rfl

/-! ## The admission of programs -/

theorem callersRefusal_eq_none {check : Bool} {ks : List Caller} :
    callersRefusal check ks = none ↔ ∀ k ∈ ks, programRefusal check [] k.prog = none := by
  induction ks with
  | nil => simp [callersRefusal]
  | cons k ks ih => cases h : programRefusal check [] k.prog <;> simp [callersRefusal, h, ih]

/-- After admitted callers the next refused one gives the reason. -/
theorem callersRefusal_append {check : Bool} {ks : List Caller} (h : callersRefusal check ks = none) (more : List Caller) :
    callersRefusal check (ks ++ more) = callersRefusal check more := by
  induction ks with
  | nil => rfl
  | cons k ks ih =>
    have hk := callersRefusal_eq_none.mp h
    have ht : callersRefusal check ks = none := callersRefusal_eq_none.mpr fun e he => hk e (List.mem_cons_of_mem _ he)
    simp [callersRefusal, hk k List.mem_cons_self, ih ht]

/-- After admitted lines the rest of a list is checked against what those lines assign. -/
theorem programRefusal_append {check : Bool} {p : Program} {env : Forecasts} (h : programRefusal check env p = none)
    (rest : Program) :
    programRefusal check env (p ++ rest) = programRefusal check (forecastProgram check env p) rest := by
  induction p generalizing env with
  | nil => rfl
  | cons l p ih =>
    unfold programRefusal at h
    split at h
    · cases h
    · rename_i hl
      simp [programRefusal, forecastProgram, hl, ih h]

/-- A line of operands that the grammar can spell is refused as ill formed exactly when an operand is. -/
theorem lineRefusal_call {env : Forecasts} {dest : Option Ident} {op : Op} {args : List Arg}
    (h : (⟨dest, .call op args⟩ : Line).ok = true) :
    lineRefusal env ⟨dest, .call op args⟩
      = if argsAdmitted env op.track op.func.slots args then none else some .illFormed := by
  simp [lineRefusal, h]

/-- A launch of at least one list answers by the check of its callers. -/
theorem launch_of_ne_nil {check : Bool} {progs : List Program} (h : progs ≠ []) :
    launch check progs = match callersRefusal check (progs.map Caller.start) with
      | some r => .refused r
      | none => .next { State.reset with callers := progs.map Caller.start, pairingCheck := check } := by
  cases progs with
  | nil => exact absurd rfl h
  | cons p ps => rfl

end Sys2Proof.Machine
end

