-- ==== Sys2Proof/Laws/PerInstr.lean ====
section
/-! SUPPORT. Statements for all instructions, one lemma per constructor: the command word of an instruction's encoding is the
one of its mnemonic, and its encoding has 0 in every bit it does not read (30_encoding.md R66, R72). -/

namespace Sys2Proof.Laws.CleanEncoding

/-- The encoding of `i` carries the command word of its mnemonic and 0 in every bus bit that is not read. -/
def Statement (i : Instr) : Prop :=
  (encode i).cmd = i.op.command ∧ (encode i).unreadBitsZero i.op = true

theorem setWidth_lt {n : Nat} (k : Nat) (v : BitVec n) (m : Nat) (h : n ≤ m) : (v.setWidth k).toNat < 2 ^ m := by
  rw [BitVec.toNat_setWidth]
  exact Nat.lt_of_le_of_lt (Nat.mod_le _ _) (Nat.lt_of_lt_of_le v.isLt (Nat.pow_le_pow_right (by decide) h))

theorem clean_of {cmd : BitVec 8} {x : BitVec 128} {y z : BitVec 64} (op : Op) (hc : cmd = op.command)
    (hx : x.toNat < 2 ^ op.readWidth .x) (hy : y.toNat < 2 ^ op.readWidth .y) (hz : z.toNat < 2 ^ op.readWidth .z) :
    cmd = op.command ∧ (⟨cmd, x, y, z⟩ : Request).unreadBitsZero op = true :=
  ⟨hc, by simp only [Request.unreadBitsZero, hx, hy, hz, decide_true, Bool.and_self]⟩

theorem mulhi32 (x : BitVec 64) (y : BitVec 32) : Statement (.mulhi32 x y) :=
  clean_of (cmd := 0x00#8) ⟨.mulhi, .u32⟩ (by decide) (setWidth_lt _ x 64 (by decide)) (setWidth_lt _ y 32 (by decide)) (by decide)

theorem precompute32 (d : BitVec 32) : Statement (.precompute32 d) :=
  clean_of (cmd := 0x01#8) ⟨.precompute, .u32⟩ (by decide) (by decide) (setWidth_lt _ d 32 (by decide)) (by decide)

theorem fastDiv32 (a : BitVec 32) (m : BitVec 64) : Statement (.fastDiv32 a m) :=
  clean_of (cmd := 0x02#8) ⟨.fastDiv, .u32⟩ (by decide) (setWidth_lt _ m 64 (by decide)) (setWidth_lt _ a 32 (by decide)) (by decide)

theorem fastMod32 (a : BitVec 32) (m : BitVec 64) (d : BitVec 32) : Statement (.fastMod32 a m d) :=
  clean_of (cmd := 0x03#8) ⟨.fastMod, .u32⟩ (by decide) (setWidth_lt _ m 64 (by decide)) (setWidth_lt _ a 32 (by decide)) (setWidth_lt _ d 32 (by decide))

theorem isMultipleOf32 (n : BitVec 32) (m : BitVec 64) : Statement (.isMultipleOf32 n m) :=
  clean_of (cmd := 0x04#8) ⟨.isMultipleOf, .u32⟩ (by decide) (setWidth_lt _ m 64 (by decide)) (setWidth_lt _ n 32 (by decide)) (by decide)

theorem mulhi64 (x : BitVec 128) (y : BitVec 64) : Statement (.mulhi64 x y) :=
  clean_of (cmd := 0x08#8) ⟨.mulhi, .u64⟩ (by decide) x.isLt y.isLt (by decide)

theorem precompute64 (d : BitVec 64) : Statement (.precompute64 d) :=
  clean_of (cmd := 0x09#8) ⟨.precompute, .u64⟩ (by decide) (by decide) d.isLt (by decide)

theorem fastDiv64 (a : BitVec 64) (m : BitVec 128) : Statement (.fastDiv64 a m) :=
  clean_of (cmd := 0x0A#8) ⟨.fastDiv, .u64⟩ (by decide) m.isLt a.isLt (by decide)

theorem fastMod64 (a : BitVec 64) (m : BitVec 128) (d : BitVec 64) : Statement (.fastMod64 a m d) :=
  clean_of (cmd := 0x0B#8) ⟨.fastMod, .u64⟩ (by decide) m.isLt a.isLt d.isLt

theorem isMultipleOf64 (n : BitVec 64) (m : BitVec 128) : Statement (.isMultipleOf64 n m) :=
  clean_of (cmd := 0x0C#8) ⟨.isMultipleOf, .u64⟩ (by decide) m.isLt n.isLt (by decide)

end Sys2Proof.Laws.CleanEncoding
end

