-- ==== Sys2Proof/Laws/Step.lean ====
section
/-! SUPPORT. Everything a step can do, said once: the caller served, the request its line spells, what the block did, the
delivery. -/

namespace Sys2Proof.Machine

/-- A request performed for caller `c`: its line, the typed request, the block's effect and the delivery. -/
theorem State.performNext_next {s t : State} {c : Nat} (h : s.performNext c = .next t) :
    ∃ k l i, s.nextLine c = some (k, l) ∧ lineInstr k.vars l = .ok i ∧ s.fault = none
      ∧ t = (effect i s).deliver c l.dest (opKind i.op) := by
  unfold State.performNext at h
  split at h
  · cases h
  · rename_i k l hl
    split at h
    · cases h
    · rename_i i hi
      split at h
      · rename_i u hu
        cases h
        obtain ⟨hf, rfl⟩ := exec_next hu
        exact ⟨k, l, i, hl, hi, hf, rfl⟩
      · cases h
      · cases h

/-- A step that answers a next state: the programs are admitted, no fault is recorded, a caller is served. -/
theorem step_next {s t : State} (h : step s = .next t) :
    s.refusal = none ∧ s.fault = none ∧ ∃ c u, s.choose = some (c, u) ∧ u.performNext c = .next t := by
  unfold step State.advance at h
  split at h
  · cases h
  · rename_i hr
    split at h
    · cases h
    · rename_i hf
      split at h
      · cases h
      · exact ⟨hr, hf, _, _, ‹_›, h⟩

/-- The caller served is a ready one, and serving it changes nothing but the order of service. -/
theorem State.choose_some {s u : State} {c : Nat} (h : s.choose = some (c, u)) :
    c ∈ s.readyCallers ∧ ∃ g n, u = { s with grants := g, picks := n } := by
  have mem : ∀ (l : List Nat) (c n : Nat), (c :: l).getD (n % (l.length + 1)) c ∈ c :: l := by
    intro l c n
    have : n % (l.length + 1) < (c :: l).length := by simpa using Nat.mod_lt n (Nat.succ_pos _)
    rw [List.getD_eq_getElem _ _ this]
    exact List.getElem_mem this
  unfold State.choose at h
  split at h
  · cases h
  · rename_i hr
    cases h
    exact ⟨hr ▸ List.mem_singleton.mpr rfl, _, _, rfl⟩
  · rename_i d cs _ hr
    split at h
    · cases h
      exact ⟨hr ▸ mem cs d _, _, _, rfl⟩
    · cases h
      exact ⟨hr ▸ mem cs d _, _, _, rfl⟩

/-! ## Runs -/

theorem Core_run_succ_of_next (M : Host.Core) {s u : M.State} (n : Nat) (h : M.step s = .next u) :
    M.run (n + 1) s = M.run n u := by
  simp only [Host.Core.run, h]

theorem Core_run_succ_next (M : Host.Core) {s t : M.State} {n : Nat} (h : M.run (n + 1) s = .next t) :
    ∃ u, M.step s = .next u ∧ M.run n u = .next t := by
  cases hs : M.step s with
  | next u => exact ⟨u, rfl, Core_run_succ_of_next M n hs ▸ h⟩
  | fault r =>
    simp only [Host.Core.run, hs] at h
    cases h
  | refused r =>
    simp only [Host.Core.run, hs] at h
    cases h

/-- A run that goes on begins with a step that answers a next state. -/
theorem run_succ_next {s t : State} {n : Nat} (h : Sys2Proof.core.run (n + 1) s = .next t) :
    ∃ u, step s = .next u ∧ Sys2Proof.core.run n u = .next t :=
  Core_run_succ_next Sys2Proof.core h

end Sys2Proof.Machine
end

