-- ==== Sys2Proof/Tests/Slice0.lean ====
section
/-! SUPPORT. The model's own tests: small, named, each about one step or one operation. Expected results are those of
95_test_vectors.md (the vector's id stands beside each) or written out by hand from the rule named. The last part gives, for
every statement with hypotheses, a state and operands that meet them. -/

open Sys2Proof Sys2Proof.Machine

/-! ## Helpers -/

/-- The next state of an outcome. -/
def testNext (o : Host.Outcome State Fault Refusal) : Option State :=
  match o with
  | .next t => some t
  | .fault _ => none
  | .refused _ => none

/-- The refusal of an outcome. -/
def testRefusal (o : Host.Outcome State Fault Refusal) : Option Refusal :=
  match o with
  | .next _ => none
  | .fault _ => none
  | .refused r => some r

/-- The fault of an outcome. -/
def testFault (o : Host.Outcome State Fault Refusal) : Option Fault :=
  match o with
  | .next _ => none
  | .fault f => some f
  | .refused _ => none

/-- The response of a request right after reset. -/
def testResponse (i : Instr) : Option (BitVec 128) :=
  (testNext (exec i State.reset)).bind State.bus

/-- The fault registers after a request on a build with or without the pairing check. -/
def testFaultRegs (check : Bool) (i : Instr) : Option (BitVec 16 × BitVec 64) :=
  (testNext (exec i { State.reset with pairingCheck := check })).map fun t => (t.faultStatus, t.faultInfo)

/-- The line of a text. -/
def testLine (text : String) : Option Line :=
  parseLine text.toList

/-- A line with literal operands. -/
def testCall (dest : Option Ident) (f : Func) (t : Track) (ns : List Nat) : Line :=
  ⟨dest, .call ⟨f, t⟩ (ns.map .lit)⟩

/-- Two callers of one line each: the first lines of 95_test_vectors.md P4. -/
def testTwo : State :=
  { State.reset with
    callers := [Caller.start [testCall (some ['p']) .precompute .u32 [10]],
      Caller.start [testCall (some ['s']) .precompute .u64 [10]]] }

/-- A stopped block: the state after vector G2. -/
def testStopped : State :=
  { testTwo with fault := some ⟨.divisorLe1, .u32, 1#64⟩ }

/-- One caller whose one request faults: caller 1 of 95_test_vectors.md P5. -/
def testFaulting : State :=
  { State.reset with callers := [Caller.start [testCall (some ['z']) .precompute .u64 [0]]] }

/-! ## Well-formedness: an ill-formed term for each check -/

theorem test_ident_ok : identOk ['p', '7', '_', 'x'] = true := by decide
theorem test_ident_empty : identOk [] = false := by decide
theorem test_ident_digit_first : identOk ['7', 'p'] = false := by decide
theorem test_ident_bad_char : identOk ['p', '.'] = false := by decide
theorem test_arg_bad_name : Arg.ok (.var ['_']) = false := by decide
/-- Vectors E1 to E4: reserved command words. -/
theorem test_request_reserved :
    [0x05#8, 0x0F#8, 0x12#8, 0x80#8].map (fun c => decode ⟨c, 0#128, 0#64, 0#64⟩)
      = [.error .reservedCmd, .error .reservedCmd, .error .reservedCmd, .error .reservedCmd] := by decide
/-- Vectors E5 to E8: a stray bit above a used operand, and one on an unused bus. -/
theorem test_request_stray_bits :
    [(⟨0x02#8, 0x10000000000000000#128, 5#64, 0#64⟩ : Request), ⟨0x02#8, 0x5555555555555556#128, 0x100000000#64, 0#64⟩,
        ⟨0x01#8, 1#128, 3#64, 0#64⟩, ⟨0x02#8, 0x5555555555555556#128, 4#64, 1#64⟩].map decode
      = [.error .operandBits, .error .operandBits, .error .operandBits, .error .operandBits] := by decide
theorem test_request_not_ok : Request.ok ⟨0x0D#8, 0#128, 0#64, 0#64⟩ = false := by decide
theorem test_line_bad_dest : (testCall (some ['7']) .precompute .u32 [3]).ok = false := by decide
theorem test_line_too_few_operands : (testCall none .fastMod .u32 [4, 5]).ok = false := by decide
theorem test_line_bad_operand_name : (⟨none, .call ⟨.precompute, .u32⟩ [.var ['.']]⟩ : Line).ok = false := by decide

/-! ## Decoding: words written out from 30_encoding.md R61 to R65, every constructor -/

/-- RSV 0000, W 0, FUNC 000 (vector E10). -/
theorem test_decode_mulhi32 : decode ⟨0b00000000#8, 0xFFFFFFFFFFFFFFFF#128, 0xFFFFFFFF#64, 0#64⟩
    = .ok (.mulhi32 0xFFFFFFFFFFFFFFFF#64 0xFFFFFFFF#32) := by decide
/-- RSV 0000, W 0, FUNC 001. -/
theorem test_decode_precompute32 : decode ⟨0b00000001#8, 0#128, 7#64, 0#64⟩ = .ok (.precompute32 7#32) := by decide
/-- RSV 0000, W 0, FUNC 010. -/
theorem test_decode_fastDiv32 : decode ⟨0b00000010#8, 0x2492492492492493#128, 100#64, 0#64⟩
    = .ok (.fastDiv32 100#32 0x2492492492492493#64) := by decide
/-- RSV 0000, W 0, FUNC 011. -/
theorem test_decode_fastMod32 : decode ⟨0b00000011#8, 0x199999999999999A#128, 12345#64, 10#64⟩
    = .ok (.fastMod32 12345#32 0x199999999999999A#64 10#32) := by decide
/-- RSV 0000, W 0, FUNC 100. -/
theorem test_decode_isMultipleOf32 : decode ⟨0b00000100#8, 0x5555555555555556#128, 9#64, 0#64⟩
    = .ok (.isMultipleOf32 9#32 0x5555555555555556#64) := by decide
/-- RSV 0000, W 1, FUNC 000. -/
theorem test_decode_mulhi64 : decode ⟨0b00001000#8, 0x55555555555555555555555555555556#128, 4294967296#64, 0#64⟩
    = .ok (.mulhi64 0x55555555555555555555555555555556#128 4294967296#64) := by decide
/-- RSV 0000, W 1, FUNC 001. -/
theorem test_decode_precompute64 : decode ⟨0b00001001#8, 0#128, 0xFFFFFFFFFFFFFFFF#64, 0#64⟩
    = .ok (.precompute64 0xFFFFFFFFFFFFFFFF#64) := by decide
/-- RSV 0000, W 1, FUNC 010. -/
theorem test_decode_fastDiv64 : decode ⟨0b00001010#8, 0x10000000000000002#128, 0xFFFFFFFFFFFFFFFE#64, 0#64⟩
    = .ok (.fastDiv64 0xFFFFFFFFFFFFFFFE#64 0x10000000000000002#128) := by decide
/-- RSV 0000, W 1, FUNC 011 (vector E9). -/
theorem test_decode_fastMod64 : decode ⟨0b00001011#8, 0x55555555555555555555555555555556#128, 4#64, 3#64⟩
    = .ok (.fastMod64 4#64 0x55555555555555555555555555555556#128 3#64) := by decide
/-- RSV 0000, W 1, FUNC 100. -/
theorem test_decode_isMultipleOf64 : decode ⟨0b00001100#8, 0x1999999999999999999999999999999A#128, 1000#64, 0#64⟩
    = .ok (.isMultipleOf64 1000#64 0x1999999999999999999999999999999A#128) := by decide
theorem test_table_word : decodeTableWord 8 0x0B = some (.fastMod64 0#64 0#128 0#64) ∧ decodeTableWord 8 0x0D = none := by
  decide

/-! ## Meanings: at most two vectors each -/

/-- H1 and H7. -/
theorem test_mulhi32 : testResponse (.mulhi32 0xFFFFFFFFFFFFFFFF#64 0xFFFFFFFF#32) = some 0xFFFFFFFE#128
    ∧ testResponse (.mulhi32 0x123456789ABCDEF0#64 0xDEADBEEF#32) = some 0xFD5BDEE#128 := by decide
/-- H13 and H14. -/
theorem test_mulhi64 : testResponse (.mulhi64 0x123456789ABCDEF0123456789ABCDEF#128 0xFEDCBA9876543210#64)
      = some 0x121FA00AD77D742#128
    ∧ testResponse (.mulhi64 0x1FFFFFFFFFFFFFFFF#128 0xFFFFFFFFFFFFFFFF#64) = some 0x1#128 := by decide
/-- G5 and G13. -/
theorem test_precompute32 : testResponse (.precompute32 2#32) = some 0x8000000000000000#128
    ∧ testResponse (.precompute32 0xFFFFFFFF#32) = some 0x100000002#128 := by decide
/-- G1 and G2. -/
theorem test_precompute32_fault : testFaultRegs false (.precompute32 0#32) = some (0x0101#16, 0#64)
    ∧ testFaultRegs false (.precompute32 1#32) = some (0x0101#16, 1#64) := by decide
/-- G16 and G20. -/
theorem test_precompute64 : testResponse (.precompute64 7#64) = some 0x24924924924924924924924924924925#128
    ∧ testResponse (.precompute64 0x8000000000000001#64) = some 0x1FFFFFFFFFFFFFFFD#128 := by decide
/-- G3 and G4. -/
theorem test_precompute64_fault : testFaultRegs false (.precompute64 0#64) = some (0x0103#16, 0#64)
    ∧ testFaultRegs false (.precompute64 1#64) = some (0x0103#16, 1#64) := by decide
/-- Q6 (m from G7) and Q17. -/
theorem test_fastDiv32 : testResponse (.fastDiv32 0xFFFFFFFF#32 0x2492492492492493#64) = some 0x24924924#128
    ∧ testResponse (.fastDiv32 0xFFFFFFFF#32 0#64) = some 0#128 := by decide
/-- Q13 (m from G16) and Q18. -/
theorem test_fastDiv64 : testResponse (.fastDiv64 0xFFFFFFFFFFFFFFFF#64 0x24924924924924924924924924924925#128)
      = some 0x2492492492492492#128
    ∧ testResponse (.fastDiv64 0x2A#64 0xFFFFFFFFFFFFFFFFFFFFFFFFFFFFFFFF#128) = some 0x29#128 := by decide
/-- M8 (m from G7) and M17, a mismatched pair (m from G6). -/
theorem test_fastMod32 : testResponse (.fastMod32 0xFFFFFFFF#32 0x2492492492492493#64 7#32) = some 3#128
    ∧ testResponse (.fastMod32 0xA#32 0x5555555555555556#64 7#32) = some 2#128 := by decide
/-- The text after M24: the mismatched rows with d = 5 and d = 0 on a build with the pairing check. -/
theorem test_fastMod32_check : testFaultRegs true (.fastMod32 0xA#32 0x5555555555555556#64 5#32) = some (0x0201#16, 5#64)
    ∧ testFaultRegs true (.fastMod32 0xA#32 0x5555555555555556#64 0#32) = some (0x0201#16, 0#64) := by decide
/-- M11 (m from G22) and M24, a mismatched pair (m from G15). -/
theorem test_fastMod64 : testResponse (.fastMod64 0xFFFFFFFFFFFFFFFE#64 0x10000000000000002#128 0xFFFFFFFFFFFFFFFF#64)
      = some 0xFFFFFFFFFFFFFFFE#128
    ∧ testResponse (.fastMod64 0xFFFFFFFFFFFFFFFF#64 0x55555555555555555555555555555556#128 0xFFFFFFFFFFFFFFFF#64)
      = some 0#128 := by decide
/-- The text after M24: a 64-bit mismatched row on a build with the pairing check, and a matched one (M14). -/
theorem test_fastMod64_check :
    testFaultRegs true (.fastMod64 0xA#64 0x55555555555555555555555555555556#128 5#64) = some (0x0203#16, 5#64)
    ∧ testFaultRegs true (.fastMod64 0x100000000#64 0x55555555555555555555555555555556#128 3#64) = some (0#16, 0#64) := by
  decide
/-- T11 (m from G6) and T4. -/
theorem test_isMultipleOf32 : testResponse (.isMultipleOf32 0xFFFFFFFF#32 0x5555555555555556#64) = some 1#128
    ∧ testResponse (.isMultipleOf32 4#32 0x5555555555555556#64) = some 0#128 := by decide
/-- T20: m = 0 draws; the request completes and uses the draw up, whichever it is. -/
theorem test_isMultipleOf32_draw :
    ((testNext (exec (.isMultipleOf32 5#32 0#64) State.reset)).map fun t => (t.bus.isSome, t.draws)) = some (true, 1) := by
  decide
/-- T13 (m from G16) and T16 (m from G22). -/
theorem test_isMultipleOf64 : testResponse (.isMultipleOf64 7#64 0x24924924924924924924924924924925#128) = some 1#128
    ∧ testResponse (.isMultipleOf64 0xFFFFFFFFFFFFFFFE#64 0x10000000000000002#128) = some 0#128 := by decide
/-- T21: m = 0 draws. -/
theorem test_isMultipleOf64_draw :
    ((testNext (exec (.isMultipleOf64 5#64 0#128) State.reset)).map fun t => (t.bus.isSome, t.draws)) = some (true, 1) := by
  decide
/-- 60_exceptions.md R202: a stopped block performs nothing. -/
theorem test_stopped_exec : testFault (exec (.mulhi32 0#64 0#32) testStopped) = some .blockStopped := by decide

/-! ## Steps -/

/-- The first line of 95_test_vectors.md P4's caller 1, served first by a fixed choice of the order: its variable is written,
its position moves, caller 0 is as before. -/
theorem test_step_grant : ((testNext (step { testTwo with grants := [1] })).map fun t =>
      (t.callers.map fun k => (k.pos, k.vars)))
    = some [(0, []), (1, [(['s'], .precomputed64 0x1999999999999999999999999999999A#128)])] := by decide
/-- 95_test_vectors.md P5, the first row: the fault is recorded, nothing is written, the position stays. -/
theorem test_step_fault : ((testNext (step testFaulting)).map fun t =>
      (t.faultStatus, t.faultInfo, t.callers.map fun k => (k.pos, k.vars.isEmpty)))
    = some (0x0103#16, 0#64, [(0, true)]) := by decide
/-- 60_exceptions.md R202. -/
theorem test_step_stopped : testFault (step testStopped) = some .blockStopped := by decide
/-- 70_reset_and_hazards.md R250: nothing is loaded after reset, so nothing is left to perform. -/
theorem test_step_reset : testFault (step State.reset) = some .launchFinal := by decide
/-- The request placed by its word is performed by the next step: CMD 0x03 with zeros on the buses answers 0 (43_remainder.md
R161, corner case a = 0). -/
theorem test_step_placed : ((testNext (step (State.reset.withFetchWord 8 0x03))).map fun t => t.callers.map Caller.vars)
    = some [[(['r'], .word32 0#32)]] := by decide
/-- The whole of a request placed by its 264 bits (30_encoding.md R71): vector M3's request. -/
theorem test_step_placed_whole :
    ((testNext (step (State.reset.withFetchWord 264 (0x03 + 2 ^ 8 * 0x2492492492492493 + 2 ^ 136 * 0x64 + 2 ^ 200 * 7)))).map
      fun t => t.callers.map Caller.vars) = some [[(['r'], .word32 2#32)]] := by decide

/-! ## The launch and the assembler: 95_test_vectors.md P7 and P3 -/

theorem test_launch_cross_track : testRefusal (launchTexts false
    ["m = precompute.u64 3\nq = fast_div.u32 4, m\n".toList]) = some .illFormed := by decide
theorem test_launch_unassigned : testRefusal (launchTexts false ["q = fast_div.u32 4, p\n".toList]) = some .illFormed := by
  decide
theorem test_launch_wide_literal : testRefusal (launchTexts false ["p = precompute.u32 4294967296\n".toList])
    = some .illFormed := by decide
theorem test_launch_reserved : testRefusal (launch false [[⟨none, .raw ⟨0x0D#8, 0#128, 0#64, 0#64⟩⟩]]) = some .reservedCmd := by
  decide
theorem test_launch_no_caller : testRefusal (launch false []) = some .noCaller := by decide
/-- P3 is well formed although its third line will fault. -/
theorem test_launch_faulting_program : ((testNext (launchTexts false
    ["p1 = precompute.u32 1      ; faults: d <= 1\nq2 = fast_div.u32 100, p1  ; never performed\n".toList])).map
      fun t => t.callers.map fun k => (k.prog.length, k.pos, k.vars.isEmpty)) = some [(2, 0, true)] := by decide
theorem test_parse_line : testLine "qa = fast_mod.u64 0xFF, pm, 3 ; boundary"
    = some ⟨some ['q', 'a'], .call ⟨.fastMod, .u64⟩ [.lit 255, .var ['p', 'm'], .lit 3]⟩ := by decide
theorem test_parse_line_discards : testLine "precompute.u32 3" = some (testCall none .precompute .u32 [3]) := by decide
/-- The comment is everything after the first `;` (log 9). -/
theorem test_parse_line_comment : testLine "precompute.u32 3 ; d = 3; é" = some (testCall none .precompute .u32 [3]) := by
  decide
/-- A text of a later caller that is no program gives the reason (log 8). -/
theorem test_launch_texts_reason : testRefusal (launchTexts false ["q = precompute.u32 p\n".toList, "q\n".toList])
    = some .notInGrammar := by decide
theorem test_parse_line_bad : testLine "x = mulhi.u16 1, 2" = none ∧ testLine "x = mulhi.u32 1 2" = none := by decide

/-! ## The host's bytes (20_memory.md R43) -/

theorem test_serialise : serialise .little 4 0x01020304 = [4#8, 3#8, 2#8, 1#8]
    ∧ serialise .big 4 0x01020304 = [1#8, 2#8, 3#8, 4#8] := by decide

/-! ## Witnesses: the hypotheses of every statement can be met, each clause at a boundary of its range -/

theorem testStart_agrees (check : Bool) (p : Program) : (Caller.start p).Agrees check :=
  ⟨Nat.zero_le _, fun _ _ => rfl, fun name f h => by
    have hn : getName name ([] : Forecasts) = some f := h
    cases hn⟩

/-- What `testNext` finds is the next state. -/
theorem testNext_some {o : Host.Outcome State Fault Refusal} (h : (testNext o).isSome = true) : ∃ t, o = .next t := by
  cases o with
  | next t => exact ⟨t, rfl⟩
  | fault f => cases h
  | refused r => cases h

theorem testTwo_inv : testTwo.Inv := by
  refine ⟨rfl, fun r h => ?_, by decide, fun k hk => ?_⟩
  · have hn : (none : Option FaultRecord) = some r := h
    cases hn
  · have hm : k = Caller.start [testCall (some ['p']) .precompute .u32 [10]]
        ∨ k = Caller.start [testCall (some ['s']) .precompute .u64 [10]] := by
      simpa [testTwo] using hk
    rcases hm with rfl | rfl
    · exact testStart_agrees _ _
    · exact testStart_agrees _ _

theorem witness_ReservedCommandsRefused :
    decode ⟨0x0D#8, 0#128, 0#64, 0#64⟩ = .error .reservedCmd
    ∧ (⟨none, .raw ⟨0x0D#8, 0#128, 0#64, 0#64⟩⟩ : Line).ok = true
    ∧ (⟨none, .raw ⟨0x0D#8, 0#128, 0#64, 0#64⟩⟩ : Line) ∈ ([⟨none, .raw ⟨0x0D#8, 0#128, 0#64, 0#64⟩⟩] : Program)
    ∧ ([⟨none, .raw ⟨0x0D#8, 0#128, 0#64, 0#64⟩⟩] : Program)
      ∈ [([⟨none, .raw ⟨0x0D#8, 0#128, 0#64, 0#64⟩⟩] : Program)] := by decide

/-- The first and the last word outside the table. -/
theorem witness_LegalCommandWords :
    [0x05#8, 0xFF#8].all (fun c => decide (c ∉ [0x00#8, 0x01#8, 0x02#8, 0x03#8, 0x04#8, 0x08#8, 0x09#8, 0x0A#8, 0x0B#8, 0x0C#8]))
      = true := by decide

/-- The boundary of each bus: the largest value that is read, and one above it. -/
theorem witness_StrayBusBitsRefused :
    decode ⟨0x03#8, 0xFFFFFFFFFFFFFFFF#128, 0xFFFFFFFF#64, 0xFFFFFFFF#64⟩
      = .ok (.fastMod32 0xFFFFFFFF#32 0xFFFFFFFFFFFFFFFF#64 0xFFFFFFFF#32)
    ∧ decode ⟨0x03#8, 0x10000000000000000#128, 0#64, 0#64⟩ = .error .operandBits
    ∧ decode ⟨0x03#8, 0#128, 0#64, 0x100000000#64⟩ = .error .operandBits
    ∧ (⟨none, .raw ⟨0x01#8, 1#128, 3#64, 0#64⟩⟩ : Line).ok = true
    ∧ decode ⟨0x01#8, 1#128, 3#64, 0#64⟩ = .error .operandBits
    ∧ (⟨none, .raw ⟨0x01#8, 1#128, 3#64, 0#64⟩⟩ : Line)
      ∈ [testCall none .precompute .u32 [3], ⟨none, .raw ⟨0x01#8, 1#128, 3#64, 0#64⟩⟩] := by decide

theorem witness_EncodeDecodeRoundTrip : decode ⟨0x09#8, 0#128, 3#64, 0#64⟩ = .ok (.precompute64 3#64) := by decide

theorem witness_LiteralLinesSpellTheirRequest :
    (2 ^ 64 - 1 < 2 ^ 64 ∧ 2 ^ 32 - 1 < 2 ^ 32) ∧ (2 ^ 128 - 1 < 2 ^ 128 ∧ 2 ^ 64 - 1 < 2 ^ 64) := by decide

/-- An unwritten variable; the largest value that fits 32 bits and one that does not; a boolean. -/
theorem witness_HostVariableOperand :
    getName ['p'] ([] : Vars) = none
    ∧ getName ['p'] [(['p'], Value.word64 0xFFFFFFFF#64)] = some (.word64 0xFFFFFFFF#64)
    ∧ (Value.word64 0xFFFFFFFF#64).toNat < 2 ^ 32 ∧ 2 ^ 32 ≤ (Value.word64 0x100000000#64).toNat
    ∧ getName ['t'] [(['t'], Value.boolean true)] = some (.boolean true)
    ∧ getName ['t'] [(['t'], Value.boolean false)] = some (.boolean false) := by decide

theorem witness_UnassignedVariableRefusesLaunch :
    ([testCall (some ['p']) .precompute .u32 [3]] ++ ⟨none, .call ⟨.precompute, .u32⟩ [.var ['q']]⟩ :: [] : Program)
      ∈ ([[testCall (some ['p']) .precompute .u32 [3], ⟨none, .call ⟨.precompute, .u32⟩ [.var ['q']]⟩]] : List Program)
    ∧ Arg.var ['q'] ∈ [Arg.var ['q']]
    ∧ ∀ l ∈ [testCall (some ['p']) .precompute .u32 [3]], l.dest ≠ some ['q'] := by decide

theorem witness_WideLiteralRefusesLaunch :
    (⟨.precompute, .u32⟩ : Op).func.slots[0]? = some .y ∧ ([Arg.lit 4294967296] : List Arg)[0]? = some (.lit 4294967296)
    ∧ 2 ^ Bus.width .u32 .y ≤ 4294967296
    ∧ (⟨none, .call ⟨.precompute, .u32⟩ [.lit 4294967296]⟩ : Line) ∈ [testCall none .precompute .u32 [4294967296]]
    ∧ [testCall none .precompute .u32 [4294967296]] ∈ [[testCall none .precompute .u32 [4294967296]]] := by decide

theorem witness_CrossTrackConstantRefusesLaunch :
    ValidDivisor 64 2 ∧ ValidDivisor 64 (2 ^ 64 - 1) ∧ 2 ^ 32 - 1 < 2 ^ 32 :=
  ⟨⟨by decide, by decide⟩, ⟨by decide, by decide⟩, by decide⟩

/-- Earlier callers and earlier lines that are admitted, before the line that is refused. -/
theorem witness_IllFormedLaunches :
    (∃ s, launch false ([[testCall none .mulhi .u32 [1, 2]]] ++ [[testCall (some ['p']) .precompute .u32 [3]]]) = .next s)
    ∧ (decode ⟨0x0D#8, 0#128, 0#64, 0#64⟩ = .error .reservedCmd ∧ decode ⟨0x01#8, 1#128, 3#64, 0#64⟩ = .error .operandBits)
    ∧ (⟨none, .call ⟨.precompute, .u32⟩ [.var ['q']]⟩ : Line).ok = true
    ∧ (testCall none .precompute .u32 [4294967296]).ok = true :=
  ⟨testNext_some (by decide), by decide, by decide, by decide⟩

/-- A caller before, a line before, the constant (a literal divisor, a divisor in a host variable, a raw request), a line
between, and a 32-bit line that names it as each kind of operand. -/
theorem witness_CrossTrackConstantRefusesLaunch_lines :
    (∃ s, launch false ([[testCall none .mulhi .u64 [1, 2]]] ++ [[testCall (some ['d']) .fastDiv .u32 [9, 1]]
        ++ ⟨some ['m'], .call ⟨.precompute, .u64⟩ [.lit 3]⟩ :: [testCall (some ['n']) .precompute .u32 [7]]]) = .next s)
    ∧ (∃ s, launch false [[testCall (some ['d']) .mulhi .u64 [2 ^ 127, 6]]
        ++ ⟨some ['m'], .call ⟨.precompute, .u64⟩ [.var ['d']]⟩ :: []] = .next s)
    ∧ (∃ s, launch false [[] ++ ⟨some ['m'], .raw ⟨0x09#8, 0#128, 3#64, 0#64⟩⟩ :: []] = .next s)
    ∧ [(⟨some ['m'], .call ⟨.precompute, .u64⟩ [.lit 3]⟩ : Line), ⟨some ['m'], .call ⟨.precompute, .u64⟩ [.var ['d']]⟩,
        ⟨some ['m'], .raw ⟨0x09#8, 0#128, 3#64, 0#64⟩⟩].all (fun e => lineOp e == some ⟨.precompute, .u64⟩) = true
    ∧ (∀ l ∈ [testCall (some ['n']) .precompute .u32 [7]], l.dest ≠ some ['m'])
    ∧ (⟨none, .call ⟨.fastMod, .u32⟩ [.var ['m'], .var ['n'], .lit 7]⟩ : Line).ok = true
    ∧ (⟨none, .call ⟨.mulhi, .u32⟩ [.var ['m'], .lit 7]⟩ : Line).ok = true
    ∧ Arg.var ['m'] ∈ [Arg.var ['m'], Arg.lit 7] :=
  ⟨testNext_some (by decide), testNext_some (by decide), testNext_some (by decide), by decide, by decide, by decide, by decide,
    by decide⟩

theorem witness_LaunchStartsFromReset : ∃ s, launch false [[testCall (some ['p']) .precompute .u32 [3]]] = .next s :=
  testNext_some (by decide)

theorem witness_LaunchSatisfiesInvariant : ∃ s, launch true [[testCall (some ['p']) .precompute .u32 [3]]] = .next s :=
  testNext_some (by decide)

theorem witness_FaultRegisterFields :
    testStopped.fault = some ⟨.divisorLe1, .u32, 1#64⟩ ∧ testTwo.faultStatus.getLsbD 0 = false := by decide

theorem witness_MultiplyHighFits : 2 ^ 64 - 1 < 2 ^ (2 * 32) ∧ 2 ^ 32 - 1 < 2 ^ 32 := by decide

/-- Divisors at both ends of the range, one that divides 2^64 and one that does not, and a larger one. -/
theorem witness_MagicConstantProperties :
    ValidDivisor Track.u32.width 2 ∧ ValidDivisor Track.u32.width (2 ^ 32 - 1) ∧ ValidDivisor Track.u64.width (2 ^ 64 - 1)
    ∧ 2 ∣ 2 ^ (2 * Track.u32.width) ∧ ¬ 3 ∣ 2 ^ (2 * Track.u32.width) ∧ 2 < 2 ^ 32 - 1
    ∧ ValidDivisor Track.u64.width (2 ^ 64 - 2 + 1) :=
  ⟨⟨by decide, by decide⟩, ⟨by decide, by decide⟩, ⟨by decide, by decide⟩, by decide, by decide, by decide,
    ⟨by decide, by decide⟩⟩

/-- A response with d at the boundary of each clause: 1 and 0 (vectors M19 and M18). -/
theorem witness_RemainderIsBounded :
    State.reset.fault = none ∧ State.reset.pairingCheck = false
    ∧ testResponse (.fastMod32 0xA#32 0x5555555555555556#64 1#32) = some 0#128 ∧ 1 ≤ (1#32).toNat
    ∧ testResponse (.fastMod64 0xA#64 0x55555555555555555555555555555556#128 0#64) = some 0#128 ∧ (0#64).toNat = 0 := by
  decide

theorem witness_ReconstructionLaw : Paired Track.u64.width (gen 64 3) 3 ∧ 2 ^ 64 - 1 < 2 ^ Track.u64.width :=
  ⟨⟨⟨by decide, by decide⟩, rfl⟩, by decide⟩

theorem witness_PairingCheckAcceptsOnlyItsDivisor :
    ValidDivisor Track.u32.width 3 ∧ 0 < 2 ^ Track.u32.width ∧ 2 ^ 32 - 1 < 2 ^ Track.u32.width :=
  ⟨⟨by decide, by decide⟩, by decide, by decide⟩

/-- The hypothesis of every statement of a response: a block that runs. -/
theorem witness_running_block : State.reset.fault = none ∧ testTwo.fault = none := by decide

theorem witness_MultiplyHighResponds : State.reset.fault = none := rfl

theorem witness_FastDivResponds : State.reset.fault = none := rfl

/-- A divisor on either side of the check, on each track. -/
theorem witness_PrecomputeRespondsOrFaults :
    State.reset.fault = none ∧ 1 < (2#32).toNat ∧ (1#32).toNat ≤ 1 ∧ (0#32).toNat ≤ 1
      ∧ 1 < (2#64).toNat ∧ (1#64).toNat ≤ 1 := by decide

/-- A build without the check, a pair that passes it, and one that fails it. -/
theorem witness_FastModRespondsOrFaults :
    State.reset.fault = none ∧ State.reset.pairingCheck = false
    ∧ (1 < (3#32).toNat ∧ (0x5555555555555556#64).toNat = (2 ^ 64 - 1) / (3#32).toNat + 1)
    ∧ (1 < (3#64).toNat ∧ (0x55555555555555555555555555555556#128).toNat = (2 ^ 128 - 1) / (3#64).toNat + 1)
    ∧ ({ State.reset with pairingCheck := true } : State).pairingCheck = true
    ∧ ¬ (1 < (1#32).toNat ∧ (0#64).toNat = (2 ^ 64 - 1) / (1#32).toNat + 1)
    ∧ ¬ (1 < (5#64).toNat ∧ (0x55555555555555555555555555555556#128).toNat = (2 ^ 128 - 1) / (5#64).toNat + 1) := by
  decide

theorem witness_IsMultipleOfResponds : State.reset.fault = none ∧ (1#64 ≠ 0#64) ∧ (1#128 ≠ 0#128) := by decide

theorem witness_ZeroConstantDraws : State.reset.fault = none := rfl

theorem witness_QuotientIsExact : State.reset.fault = none ∧ 2 ≤ (2#32).toNat ∧ 2 ≤ (0xFFFFFFFFFFFFFFFF#64).toNat := by
  decide

theorem witness_RemainderIsExact :
    ({ State.reset with pairingCheck := true } : State).fault = none ∧ 2 ≤ (0xFFFFFFFF#32).toNat ∧ 2 ≤ (2#64).toNat := by
  decide

theorem witness_DivisibilityIsExact : State.reset.fault = none ∧ 2 ≤ (2#32).toNat ∧ 2 ≤ (2#64).toNat := by decide

theorem witness_ResponseIsZeroExtended :
    ∃ t, exec (.mulhi32 0xFFFFFFFFFFFFFFFF#64 0xFFFFFFFF#32) State.reset = .next t ∧ t.bus = some 0xFFFFFFFE#128 :=
  ⟨_, rfl, by decide⟩

theorem witness_PerformedRequestCompletes : State.reset.fault = none := rfl

theorem witness_HonouredRequestReturnsValue :
    State.reset.fault = none ∧ CannotFault false (.precompute32 2#32) ∧ CannotFault false (.fastMod32 0#32 0#64 0#32)
    ∧ CannotFault true (.fastMod64 0#64 0x55555555555555555555555555555556#128 3#64) :=
  ⟨rfl, by unfold CannotFault; decide, .inl rfl, .inr ⟨⟨by decide, by decide⟩, by decide⟩⟩

/-- Each of the four causes. -/
theorem witness_OnlyTwoFaultCauses :
    testFaultRegs false (.precompute32 1#32) = some (0x0101#16, 1#64)
    ∧ testFaultRegs false (.precompute64 0#64) = some (0x0103#16, 0#64)
    ∧ testFaultRegs true (.fastMod32 0#32 0#64 1#32) = some (0x0201#16, 1#64)
    ∧ testFaultRegs true (.fastMod64 0#64 0#128 2#64) = some (0x0203#16, 2#64) := by decide

theorem witness_RequestFrame :
    (∃ t, exec (.isMultipleOf32 5#32 0#64) testTwo = .next t) ∧ NoDraw (.isMultipleOf32 5#32 1#64)
    ∧ ¬ NoDraw (.isMultipleOf32 5#32 0#64) ∧ CannotFault false (.isMultipleOf32 5#32 0#64) :=
  ⟨⟨_, rfl⟩, by unfold NoDraw; decide, by unfold NoDraw; decide, trivial⟩

theorem witness_ResponseIgnoresState :
    NoDraw (.precompute32 1#32) ∧ State.reset.fault = none ∧ State.reset.pairingCheck = false :=
  ⟨trivial, rfl, rfl⟩

theorem witness_StepPerformsTheLine :
    testTwo.refusal = none ∧ testTwo.fault = none
    ∧ State.choose { testTwo with grants := [1] } = some (1, testTwo)
    ∧ testTwo.nextLine 1
      = some (Caller.start [testCall (some ['s']) .precompute .u64 [10]], testCall (some ['s']) .precompute .u64 [10])
    ∧ lineInstr [] (testCall (some ['s']) .precompute .u64 [10]) = .ok (.precompute64 10#64)
    ∧ ∃ u, exec (.precompute64 10#64) testTwo = .next u :=
  ⟨by decide, by decide, by decide, by decide, by decide, ⟨_, rfl⟩⟩

theorem witness_PlacedWordIsPerformed :
    decodeTableWord 8 0x08 = some (.mulhi64 0#128 0#64)
    ∧ ∃ u, exec (.mulhi64 0#128 0#64) (State.reset.withFetchWord 8 0x08) = .next u :=
  ⟨by decide, ⟨_, rfl⟩⟩

/-- A step that responds and a step that faults. -/
theorem witness_StepFrame : (∃ t, step { testTwo with grants := [0] } = .next t) ∧ ∃ t, step testFaulting = .next t :=
  ⟨testNext_some (by decide), testNext_some (by decide)⟩

theorem witness_StepPerformsOneRequest :
    ((testNext (step { testTwo with grants := [0] })).map State.fault) = some none
    ∧ ((testNext (step testFaulting)).map State.fault) = some (some ⟨.divisorLe1, .u64, 0#64⟩) := by decide

theorem witness_FaultEntryWritesOnlyTheRecord :
    ((testNext (step testFaulting)).map State.fault) = some (some ⟨.divisorLe1, .u64, 0#64⟩) := by decide

theorem witness_FaultStopsTheBlock :
    testStopped.fault = some ⟨.divisorLe1, .u32, 1#64⟩ ∧ testStopped.refusal = none := by decide

/-- A launch that is final and one that is not. -/
theorem witness_FinalLaunchHasNoStep :
    State.reset.refusal = none ∧ testTwo.refusal = none ∧ testTwo.final = false ∧ State.reset.final = true := by decide

theorem witness_AnyReadyCallerMayBeServed :
    testTwo.isReady 0 = true ∧ testTwo.isReady 1 = true
    ∧ State.choose { testTwo with grants := [1] } = some (1, testTwo) := by decide

theorem witness_RequestsOfCallersCommute :
    (0 : Nat) ≠ 1
    ∧ ((testNext (testTwo.performNext 0)).map fun t => (t.fault, t.draws)) = some (none, testTwo.draws)
    ∧ ((testNext (testTwo.performNext 1)).map fun t => (t.fault, t.draws)) = some (none, testTwo.draws) := by decide

theorem witness_StepKeepsInvariant : testTwo.Inv ∧ ∃ t, step testTwo = .next t :=
  ⟨testTwo_inv, testNext_some (by
    have hc : State.choose testTwo
        = some ([0, 1].getD (Config.pick 0 % 2) 0, { testTwo with picks := 1 }) := by rfl
    have hr : testTwo.refusal = none := by decide
    have hf : testTwo.fault = none := rfl
    rcases Nat.mod_two_eq_zero_or_one (Config.pick 0) with h | h
    · simp only [step, State.advance, hr, hf, hc, h]
      decide
    · simp only [step, State.advance, hr, hf, hc, h]
      decide)⟩

theorem witness_AdmittedLaunchNeverRefused : testTwo.Inv :=
  testTwo_inv

theorem witness_SerialisedValueReadsBack : 2 ^ 128 - 1 < 256 ^ 16 ∧ 0 < 16 ∧ 15 < 16 := by decide

/-- A step that responds. -/
theorem witness_StepWritesTheResponse :
    (∃ u, exec (.precompute32 10#32) State.reset = .next u ∧ u.bus = some 0x199999999999999A#128)
    ∧ ((testNext (step { testTwo with grants := [0] })).map State.fault) = some none :=
  ⟨⟨_, rfl, by decide⟩, by decide⟩

/-- Two lines of 95_test_vectors.md P4 in their own caller's order, the second naming the first's response, and a raw request. -/
theorem witness_WellFormedProgramsAreLaunched :
    ProgramFits [testCall (some ['s']) .precompute .u64 [10], ⟨some ['t'], .call ⟨.isMultipleOf, .u64⟩ [.lit 1000, .var ['s']]⟩,
      ⟨none, .raw ⟨0x01#8, 0#128, 3#64, 0#64⟩⟩] := by
  rintro (_ | _ | _ | n) l h
  · cases h
    refine ⟨by decide, ?_⟩
    rintro (_ | j) b a hb ha
    · cases hb
      cases ha
      exact (by decide : 10 < 2 ^ 64)
    · cases hb
  · cases h
    refine ⟨by decide, ?_⟩
    rintro (_ | _ | j) b a hb ha
    · cases hb
      cases ha
      exact (by decide : 1000 < 2 ^ 64)
    · cases hb
      cases ha
      refine ⟨⟨_, List.mem_cons_self, rfl⟩, fun e he _ op hop => ?_⟩
      have hm : e = testCall (some ['s']) .precompute .u64 [10] := by simpa using he
      subst hm
      cases hop
      decide
    · cases hb
  · cases h
    exact ⟨by decide, ⟨_, rfl⟩⟩
  · cases h

/-- The largest quotient that fits and the smallest that does not. -/
theorem witness_VariableFitsByValue :
    2 ^ 33 < 2 ^ 64 ∧ 2 ^ 127 < 2 ^ 128 ∧ 2 ^ 127 * (2 ^ 33 - 1) / 2 ^ 128 < 2 ^ 32 ∧ 2 ^ 32 ≤ 2 ^ 127 * 2 ^ 33 / 2 ^ 128 := by
  decide

/-- A determined value at the boundary of each clause: 2^32 - 1 in `q`, 2^32 in `r`, as the divisor of `precompute.u32`. -/
theorem witness_VariableFitsByValue_lines :
    let before : Program := [testCall (some ['q']) .mulhi .u64 [2 ^ 127, 2 ^ 33 - 1], testCall (some ['r']) .mulhi .u64 [2 ^ 127, 2 ^ 33]]
    (∃ s, launch false ([[]] ++ [before]) = .next s)
    ∧ (⟨none, .call ⟨.precompute, .u32⟩ [.var ['q']]⟩ : Line).ok = true
    ∧ (⟨none, .call ⟨.precompute, .u32⟩ [.var ['r']]⟩ : Line).ok = true
    ∧ (getName ['q'] (forecastProgram false [] before)).bind Forecast.value = some (.word64 0xFFFFFFFF#64)
    ∧ (getName ['r'] (forecastProgram false [] before)).bind Forecast.value = some (.word64 0x100000000#64)
    ∧ (Value.word64 0xFFFFFFFF#64).toNat < 2 ^ Bus.width .u32 .y ∧ 2 ^ Bus.width .u32 .y ≤ (Value.word64 0x100000000#64).toNat :=
  ⟨testNext_some (by decide), by decide, by decide, by decide, by decide, by decide, by decide⟩
end

section
/-! PROOFS of the state's statements (10_state.md): first what a request and a step can do, said once, then the statements. -/

open Sys2Proof

namespace Sys2Proof.Machine

/-! ## The answer of a request -/

/-- A performed request puts a response on the bus, at most with a draw used up, or records a fault; nothing else changes. -/
theorem effect_answers_or_faults (i : Instr) (s : State) :
    (∃ r n, effect i s = { s with bus := some r, draws := n })
      ∨ ∃ e, effect i s = { s with fault := some e, bus := none } := by
  rcases effect_cases i s with ⟨r, h⟩ | h | ⟨code, t, d, h⟩
  · exact .inl ⟨r, s.draws, h⟩
  · exact .inl ⟨_, _, h⟩
  · exact .inr ⟨_, h⟩

/-- What a request does is independent of the order of service. -/
theorem effect_with_order (i : Instr) (s : State) (g : List Nat) (p : Nat) :
    effect i { s with grants := g, picks := p } = { effect i s with grants := g, picks := p } := by
  have generate : ∀ t d, State.generate { s with grants := g, picks := p } t d
      = { s.generate t d with grants := g, picks := p } := by
    intro t d
    unfold State.generate
    split <;> rfl
  have remainder : ∀ t a m d, State.remainder { s with grants := g, picks := p } t a m d
      = { s.remainder t a m d with grants := g, picks := p } := by
    intro t a m d
    unfold State.remainder
    dsimp only
    split <;> rfl
  have test : ∀ w n m, State.testMultiple { s with grants := g, picks := p } w n m
      = { s.testMultiple w n m with grants := g, picks := p } := by
    intro w n m
    unfold State.testMultiple
    split <;> rfl
  cases i with
  | mulhi32 x y => rfl
  | mulhi64 x y => rfl
  | fastDiv32 a m => rfl
  | fastDiv64 a m => rfl
  | precompute32 d => exact generate _ _
  | precompute64 d => exact generate _ _
  | fastMod32 a m d => exact remainder _ _ _ _
  | fastMod64 a m d => exact remainder _ _ _ _
  | isMultipleOf32 n m => exact test _ _ _
  | isMultipleOf64 n m => exact test _ _ _

/-- `t` is `s` after the answer that stands in `a`: its response and its fault record, and nothing else of it. -/
def TakesAnswer (s a t : State) : Prop :=
  t = { s with bus := a.bus, fault := a.fault }

theorem TakesAnswer.respond {s a : State} (hs : s.fault = none) (ha : a.fault = none) (v : Nat) :
    TakesAnswer s (a.respond v) (s.respond v) := by
  simp [TakesAnswer, State.respond, ha, ← hs]

theorem TakesAnswer.raiseFault (s a : State) (code : FaultCode) (t : Track) (d : BitVec 64) :
    TakesAnswer s (a.raiseFault code t d) (s.raiseFault code t d) :=
  rfl

theorem TakesAnswer.generate {s a : State} (hs : s.fault = none) (ha : a.fault = none) (t : Track) (d : BitVec 64) :
    TakesAnswer s (a.generate t d) (s.generate t d) := by
  unfold State.generate
  split
  · exact .raiseFault s a _ _ _
  · exact .respond hs ha _

theorem TakesAnswer.remainder {s a : State} (hs : s.fault = none) (ha : a.fault = none)
    (hc : s.pairingCheck = a.pairingCheck) (t : Track) (n m : Nat) (d : BitVec 64) :
    TakesAnswer s (a.remainder t n m d) (s.remainder t n m d) := by
  unfold State.remainder
  rw [hc]
  split
  · exact .raiseFault s a _ _ _
  · exact .respond hs ha _

theorem TakesAnswer.testMultiple {s a : State} (hs : s.fault = none) (ha : a.fault = none) {m : Nat} (hm : m ≠ 0)
    (w n : Nat) : TakesAnswer s (a.testMultiple w n m) (s.testMultiple w n m) := by
  simp [TakesAnswer, State.testMultiple, State.respondBool, hm, ha, ← hs]

/-- Two running blocks of one build answer a request alike, unless it draws (10_state.md R20). -/
theorem effect_takesAnswer {i : Instr} (hi : NoDraw i) {s a : State} (hs : s.fault = none) (ha : a.fault = none)
    (hc : s.pairingCheck = a.pairingCheck) : TakesAnswer s (effect i a) (effect i s) := by
  cases i with
  | mulhi32 x y => exact .respond hs ha _
  | mulhi64 x y => exact .respond hs ha _
  | fastDiv32 n m => exact .respond hs ha _
  | fastDiv64 n m => exact .respond hs ha _
  | precompute32 d => exact .generate hs ha _ _
  | precompute64 d => exact .generate hs ha _ _
  | fastMod32 n m d => exact .remainder hs ha hc _ _ _ _
  | fastMod64 n m d => exact .remainder hs ha hc _ _ _ _
  | isMultipleOf32 n m => exact .testMultiple hs ha (fun h => hi (BitVec.eq_of_toNat_eq h)) _ _
  | isMultipleOf64 n m => exact .testMultiple hs ha (fun h => hi (BitVec.eq_of_toNat_eq h)) _ _

/-- The block right after reset on either build: whose responses are the forecast ones. -/
def idleBlock (check : Bool) : State :=
  { State.reset with pairingCheck := check }

/-- The one request that draws: a divisibility test with m = 0 (44_divisibility.md R182). -/
theorem effect_of_not_noDraw {i : Instr} (hi : ¬ NoDraw i) (s : State) : effect i s = s.respondDraw := by
  cases i with
  | isMultipleOf32 n m =>
    obtain rfl : m = 0#64 := not_not.mp hi
    rfl
  | isMultipleOf64 n m =>
    obtain rfl : m = 0#128 := not_not.mp hi
    rfl
  | _ => exact absurd trivial hi

/-! ## The width of a response -/

theorem Track.two_le_pow_width (t : Track) : 2 ≤ 2 ^ (2 * t.width) := by
  cases t <;> decide

/-- A magic constant fits in 2w bits (41_magic_constant.md R124). -/
theorem gen_lt (t : Track) {d : Nat} (hd : 1 < d) : gen t.width d < 2 ^ (2 * t.width) := by
  have hle : (2 ^ (2 * t.width) - 1) / d ≤ (2 ^ (2 * t.width) - 1) / 2 := Nat.div_le_div_left hd (by decide)
  have h2 := Track.two_le_pow_width t
  unfold gen
  omega

theorem State.respond_bus_lt {s : State} {v n : Nat} (hv : v < n) {r : BitVec 128} (h : (s.respond v).bus = some r) :
    r.toNat < n := by
  cases h
  exact Nat.lt_of_le_of_lt (by simpa using Nat.mod_le _ _) hv

theorem State.generate_bus_lt {s : State} {t : Track} {d : BitVec 64} {r : BitVec 128}
    (h : (s.generate t d).bus = some r) : r.toNat < 2 ^ (2 * t.width) := by
  rcases Nat.lt_or_ge 1 d.toNat with hd | hd
  · rw [State.generate_of_one_lt hd] at h
    exact State.respond_bus_lt (gen_lt t hd) h
  · rw [State.generate_of_le_one hd] at h
    cases h

theorem State.remainder_bus_lt {s : State} {t : Track} {a m : Nat} {d : BitVec 64} (hd : d.toNat < 2 ^ t.width)
    {r : BitVec 128} (h : (s.remainder t a m d).bus = some r) : r.toNat < 2 ^ t.width := by
  unfold State.remainder at h
  split at h
  · cases h
  · exact State.respond_bus_lt (mulhi_lt (lowprod_lt _ _ _) hd) h

theorem boolBus_toNat_lt (b : Bool) : (boolBus b).toNat < 2 := by
  cases b <;> decide

theorem State.testMultiple_bus_lt {s : State} {w n m : Nat} {r : BitVec 128}
    (h : (s.testMultiple w n m).bus = some r) : r.toNat < 2 := by
  unfold State.testMultiple at h
  split at h <;> cases h <;> exact boolBus_toNat_lt _

/-- A response is 0 above the width of its kind (30_encoding.md R68). -/
theorem effect_bus_lt {i : Instr} {s : State} {r : BitVec 128} (h : (effect i s).bus = some r) :
    r.toNat < 2 ^ (opKind i.op).width := by
  cases i with
  | mulhi32 x y => exact State.respond_bus_lt (mulhi_lt x.isLt y.isLt) h
  | mulhi64 x y => exact State.respond_bus_lt (mulhi_lt x.isLt y.isLt) h
  | fastDiv32 a m => exact State.respond_bus_lt (mulhi_lt m.isLt a.isLt) h
  | fastDiv64 a m => exact State.respond_bus_lt (mulhi_lt m.isLt a.isLt) h
  | precompute32 d => exact State.generate_bus_lt (t := .u32) h
  | precompute64 d => exact State.generate_bus_lt (t := .u64) h
  | fastMod32 a m d => exact State.remainder_bus_lt (t := .u32) (Laws.CleanEncoding.setWidth_lt 64 d 32 le_rfl) h
  | fastMod64 a m d => exact State.remainder_bus_lt (t := .u64) d.isLt h
  | isMultipleOf32 n m => exact State.testMultiple_bus_lt h
  | isMultipleOf64 n m => exact State.testMultiple_bus_lt h

/-! ## The record of a fault -/

theorem State.faultOk_of_running {s : State} (h : s.fault = none) : s.FaultOk := by
  intro r hr
  rw [h] at hr
  cases hr

theorem State.generate_faultOk {s : State} (hs : s.fault = none) {t : Track} {d : BitVec 64}
    (hd : d.toNat < 2 ^ t.width) : (s.generate t d).FaultOk := by
  unfold State.generate
  split
  · rename_i hle
    intro r hr
    cases hr
    exact ⟨hd, fun _ => hle, nofun⟩
  · exact State.faultOk_of_running hs

theorem State.remainder_faultOk {s : State} (hs : s.fault = none) {t : Track} {a m : Nat} {d : BitVec 64}
    (hd : d.toNat < 2 ^ t.width) : (s.remainder t a m d).FaultOk := by
  unfold State.remainder
  split
  · rename_i hcheck
    intro r hr
    cases hr
    exact ⟨hd, nofun, fun _ => (Bool.and_eq_true_iff.mp hcheck).1⟩
  · exact State.faultOk_of_running hs

theorem State.testMultiple_fault (s : State) (w n m : Nat) : (s.testMultiple w n m).fault = s.fault := by
  unfold State.testMultiple
  split <;> rfl

/-- A fault raised by a request is recorded with a divisor of its track, code 1 with d <= 1 alone, code 2 only where the
pairing check is built (60_exceptions.md R200). -/
theorem effect_faultOk (i : Instr) {s : State} (hs : s.fault = none) : (effect i s).FaultOk := by
  cases i with
  | mulhi32 x y => exact State.faultOk_of_running hs
  | mulhi64 x y => exact State.faultOk_of_running hs
  | fastDiv32 a m => exact State.faultOk_of_running hs
  | fastDiv64 a m => exact State.faultOk_of_running hs
  | precompute32 d => exact State.generate_faultOk hs (Laws.CleanEncoding.setWidth_lt 64 d 32 le_rfl)
  | precompute64 d => exact State.generate_faultOk hs d.isLt
  | fastMod32 a m d => exact State.remainder_faultOk hs (Laws.CleanEncoding.setWidth_lt 64 d 32 le_rfl)
  | fastMod64 a m d => exact State.remainder_faultOk hs d.isLt
  | isMultipleOf32 n m => exact State.faultOk_of_running ((s.testMultiple_fault _ _ _).trans hs)
  | isMultipleOf64 n m => exact State.faultOk_of_running ((s.testMultiple_fault _ _ _).trans hs)

/-! ## What a step does -/

/-- Line `l` of caller `c` is ready in a running block of admitted programs, and spells the request `i`. -/
structure Serves (s : State) (c : Nat) (k : Caller) (l : Line) (i : Instr) : Prop where
  admitted : s.refusal = none
  running : s.fault = none
  caller : s.callers[c]? = some k
  line : k.prog[k.pos]? = some l
  request : lineInstr k.vars l = .ok i

theorem Serves.pos_lt {s : State} {c : Nat} {k : Caller} {l : Line} {i : Instr} (h : Serves s c k l i) :
    k.pos < k.prog.length :=
  (List.getElem?_eq_some_iff.mp h.line).1

/-- The callers after caller `c` received the response `r` to the request `i` of its line `l`. -/
def State.callersAfter (s : State) (c : Nat) (l : Line) (i : Instr) (r : BitVec 128) : List Caller :=
  s.callers.modify c fun k => k.receive l.dest ((opKind i.op).ofBus r)

/-- Everything a step can do: of one served line the response is delivered, or the fault is recorded. The model's own fields
aside, nothing else changes. -/
theorem step_delivers_or_faults {s t : State} (h : step s = .next t) :
    ∃ c k l i, Serves s c k l i ∧ ∃ g p,
      ((∃ r n, (effect i s).bus = some r
          ∧ t = { s with bus := none, callers := s.callersAfter c l i r, draws := n, grants := g, picks := p })
        ∨ ∃ e, effect i s = { s with fault := some e, bus := none }
          ∧ t = { s with fault := some e, bus := none, grants := g, picks := p }) := by
  obtain ⟨hadm, hrun, c, u, hc, hperf⟩ := step_next h
  obtain ⟨-, g, p, rfl⟩ := State.choose_some hc
  obtain ⟨k, l, i, hl, hi, -, rfl⟩ := State.performNext_next hperf
  obtain ⟨hk, hline⟩ := State.nextLine_some hl
  refine ⟨c, k, l, i, ⟨hadm, hrun, hk, hline, hi⟩, g, p, ?_⟩
  rw [effect_with_order i s g p]
  rcases effect_answers_or_faults i s with ⟨r, n, he⟩ | ⟨e, he⟩
  · exact .inl ⟨r, n, by rw [he], by rw [he]; rfl⟩
  · exact .inr ⟨e, he, by rw [he]; rfl⟩

/-! ## The callers after a delivery -/

theorem State.callersAfter_length (s : State) (c : Nat) (l : Line) (i : Instr) (r : BitVec 128) :
    (s.callersAfter c l i r).length = s.callers.length :=
  List.length_modify ..

theorem State.callersAfter_self {s : State} {c : Nat} {k : Caller} (h : s.callers[c]? = some k) (l : Line) (i : Instr)
    (r : BitVec 128) : (s.callersAfter c l i r)[c]? = some (k.receive l.dest ((opKind i.op).ofBus r)) := by
  simp [State.callersAfter, h]

theorem State.callersAfter_ne {c e : Nat} (h : e ≠ c) (s : State) (l : Line) (i : Instr) (r : BitVec 128) :
    (s.callersAfter c l i r)[e]? = s.callers[e]? :=
  List.getElem?_modify_ne _ _ (Ne.symm h)

/-- What holds of every caller and of the one served after its delivery, holds of all callers after it. -/
theorem State.forall_mem_callersAfter {P : Caller → Prop} {s : State} {c : Nat} {k : Caller} {l : Line} {i : Instr}
    {r : BitVec 128} (hk : s.callers[c]? = some k) (hall : ∀ a ∈ s.callers, P a)
    (hserved : P (k.receive l.dest ((opKind i.op).ofBus r))) : ∀ a ∈ s.callersAfter c l i r, P a := by
  intro a ha
  obtain ⟨e, he⟩ := List.mem_iff_getElem?.mp ha
  by_cases hec : e = c
  · subst hec
    rw [State.callersAfter_self hk] at he
    cases he
    exact hserved
  · rw [State.callersAfter_ne hec] at he
    exact hall a (List.mem_of_getElem? he)

/-- A sum over a list falls by one where one entry's summand does. -/
theorem sum_map_modify_add_one {α : Type} {f : α → Nat} {g : α → α} {l : List α} {c : Nat} {a : α} (h : l[c]? = some a)
    (hg : f (g a) + 1 = f a) : ((l.modify c g).map f).sum + 1 = (l.map f).sum := by
  induction l generalizing c with
  | nil => cases h
  | cons b l ih =>
    cases c with
    | zero =>
      cases h
      simp only [List.modify_zero_cons, List.map_cons, List.sum_cons]
      omega
    | succ c =>
      have := ih (c := c) h
      simp only [List.modify_succ_cons, List.map_cons, List.sum_cons]
      omega

/-! ## Host variables and their forecasts -/

/-- Every variable written in `known` is written in `vars`, with the same value. -/
def VarsWithin (known vars : Vars) : Prop :=
  ∀ name v, getName name known = some v → getName name vars = some v

theorem argValue_of_within {known vars : Vars} (h : VarsWithin known vars) {width n : Nat} {a : Arg}
    (ha : argValue known width a = .ok n) : argValue vars width a = .ok n := by
  cases a with
  | lit m => exact ha
  | var name =>
    cases hn : getName name known with
    | none => simp [argValue, hn] at ha
    | some v => simpa [argValue, hn, h name v hn] using ha

theorem fillBuses_of_within {known vars : Vars} (h : VarsWithin known vars) {t : Track} {bs : List Bus} {as : List Arg}
    {r q : Request} (hq : fillBuses known t bs as r = .ok q) : fillBuses vars t bs as r = .ok q := by
  induction bs generalizing as r with
  | nil =>
    cases as with
    | nil => exact hq
    | cons a as => cases hq
  | cons b bs ih =>
    cases as with
    | nil => cases hq
    | cons a as =>
      cases ha : argValue known (b.width t) a with
      | error e => simp [fillBuses, ha] at hq
      | ok n =>
        simp only [fillBuses, ha] at hq
        simpa only [fillBuses, argValue_of_within h ha] using ih hq

/-- A line spells the same request once more of the variables are written. -/
theorem lineInstr_of_within {known vars : Vars} (h : VarsWithin known vars) {l : Line} {i : Instr}
    (hi : lineInstr known l = .ok i) : lineInstr vars l = .ok i := by
  obtain ⟨dest, body⟩ := l
  cases body with
  | raw r => exact hi
  | call op args =>
    cases hq : fillBuses known op.track op.func.slots args ⟨op.command, 0#128, 0#64, 0#64⟩ with
    | error e => simp [lineInstr, hq] at hi
    | ok q => simpa [lineInstr, hq, fillBuses_of_within h hq] using hi

theorem fillBuses_cmd {vars : Vars} {t : Track} {bs : List Bus} {as : List Arg} {r q : Request}
    (hq : fillBuses vars t bs as r = .ok q) : q.cmd = r.cmd := by
  induction bs generalizing as r with
  | nil =>
    cases as with
    | nil =>
      cases hq
      rfl
    | cons a as => cases hq
  | cons b bs ih =>
    cases as with
    | nil => cases hq
    | cons a as =>
      cases ha : argValue vars (b.width t) a with
      | error e => simp [fillBuses, ha] at hq
      | ok n =>
        simp only [fillBuses, ha] at hq
        rw [ih hq]
        cases b <;> rfl

theorem decodeOrRefuse_op {r : Request} {i : Instr} (h : decodeOrRefuse r = .ok i) : decodeCommand r.cmd = some i.op := by
  unfold decodeOrRefuse at h
  split at h
  · rename_i j hj
    cases h
    obtain ⟨op, hop, -, rfl⟩ := decode_ok hj
    rw [hop, operandsOf_op]
  · cases h

/-- The request a line spells is one of the unit and track the line names. -/
theorem lineOp_of_lineInstr {vars : Vars} {l : Line} {i : Instr} (h : lineInstr vars l = .ok i) :
    lineOp l = some i.op := by
  obtain ⟨dest, body⟩ := l
  cases body with
  | raw r => exact decodeOrRefuse_op h
  | call op args =>
    cases hq : fillBuses vars op.track op.func.slots args ⟨op.command, 0#128, 0#64, 0#64⟩ with
    | error e => simp [lineInstr, hq] at h
    | ok q =>
      have hop : decodeCommand q.cmd = some i.op := decodeOrRefuse_op (by simpa [lineInstr, hq] using h)
      rwa [fillBuses_cmd hq, decodeCommand_command] at hop

/-! ### Forecasts -/

theorem setDest_nodup {α : Type} (dest : Option Ident) (v : α) {l : List (Ident × α)} (h : (l.map Prod.fst).Nodup) :
    ((setDest dest v l).map Prod.fst).Nodup := by
  cases dest with
  | none => exact h
  | some name => exact setName_nodup name v l h

theorem forecastNext_nodup {check : Bool} {env : Forecasts} (l : Line) (h : (env.map Prod.fst).Nodup) :
    ((forecastNext check env l).map Prod.fst).Nodup := by
  unfold forecastNext
  split
  · exact h
  · exact setDest_nodup _ _ h

/-- The forecasts name each variable at most once. -/
theorem forecastProgram_nodup {check : Bool} (p : Program) {env : Forecasts} (h : (env.map Prod.fst).Nodup) :
    ((forecastProgram check env p).map Prod.fst).Nodup := by
  induction p generalizing env with
  | nil => exact h
  | cons l p ih => exact ih (forecastNext_nodup l h)

theorem forecastProgram_append (check : Bool) (env : Forecasts) (p q : Program) :
    forecastProgram check env (p ++ q) = forecastProgram check (forecastProgram check env p) q := by
  induction p generalizing env with
  | nil => rfl
  | cons l p ih => exact ih _

/-- A name outside a list of variables holds nothing there. -/
theorem getName_eq_none {α : Type} {name : Ident} {l : List (Ident × α)} (h : name ∉ l.map Prod.fst) :
    getName name l = none := by
  induction l with
  | nil => rfl
  | cons e l ih =>
    obtain ⟨hne, hnot⟩ := not_or.mp (List.mem_cons.not.mp h)
    simp [getName, Ne.symm hne, ih hnot]

/-- A variable whose value the text determines has that value in its forecast. -/
theorem getName_of_knownVars {env : Forecasts} (h : (env.map Prod.fst).Nodup) {name : Ident} {v : Value}
    (hv : getName name (knownVars env) = some v) : ∃ f, getName name env = some f ∧ f.value = some v := by
  induction env with
  | nil => cases hv
  | cons e env ih =>
    obtain ⟨n, f⟩ := e
    obtain ⟨hnot, hnodup⟩ := List.nodup_cons.mp h
    by_cases hn : n = name
    · subst hn
      refine ⟨f, by simp [getName], ?_⟩
      cases hf : f.value with
      | some u => simpa [knownVars, hf, getName] using hv
      | none =>
        simp only [knownVars, hf] at hv
        obtain ⟨f', hf', -⟩ := ih hnodup hv
        rw [getName_eq_none hnot] at hf'
        cases hf'
    · have htail : getName name (knownVars env) = some v := by
        cases hf : f.value <;> simpa [knownVars, hf, getName, hn] using hv
      simpa [getName, hn] using ih hnodup htail

/-- Where the variables agree with their forecasts, those the text determines hold the values it determines. -/
theorem VarsAgree.knownVars_within {env : Forecasts} {vars : Vars} (h : VarsAgree env vars)
    (hn : (env.map Prod.fst).Nodup) : VarsWithin (knownVars env) vars := by
  intro name v hv
  obtain ⟨f, hf, hval⟩ := getName_of_knownVars hn hv
  obtain ⟨w, hw, -, hwv⟩ := h.2 name f hf
  rw [hw, hwv v hval]

/-- A response of the forecast kind, and of the forecast value where there is one, keeps the variables in agreement. -/
theorem VarsAgree.setDest {env : Forecasts} {vars : Vars} (h : VarsAgree env vars) (dest : Option Ident) {f : Forecast}
    {v : Value} (hkind : v.kind = f.kind) (hvalue : ∀ u, f.value = some u → v = u) :
    VarsAgree (setDest dest f env) (setDest dest v vars) := by
  obtain ⟨hnone, hsome⟩ := h
  refine ⟨fun name hname => ?_, fun name f' hname => ?_⟩
  · rw [getName_setDest] at hname ⊢
    split at hname
    · cases hname
    · rename_i hne
      rw [if_neg hne]
      exact hnone name hname
  · rw [getName_setDest] at hname ⊢
    split at hname
    · rename_i heq
      cases hname
      exact ⟨v, if_pos heq, hkind, hvalue⟩
    · rename_i hne
      rw [if_neg hne]
      exact hsome name f' hname

/-- A forecast response is the one every running block of that build gives (10_state.md R20). -/
theorem forecastResponse_eq {i : Instr} {u : Value} {s : State} (hs : s.fault = none)
    (hu : forecastResponse s.pairingCheck i = some u) {r : BitVec 128} (hr : (effect i s).bus = some r) :
    (opKind i.op).ofBus r = u := by
  unfold forecastResponse at hu
  rw [exec_of_running i rfl] at hu
  dsimp only at hu
  split at hu
  · rename_i q hq hdraws
    cases hu
    by_cases hi : NoDraw i
    · have hanswer : TakesAnswer s (effect i (idleBlock s.pairingCheck)) (effect i s) := effect_takesAnswer hi hs rfl rfl
      rw [hanswer] at hr
      cases hq.symm.trans hr
      rfl
    · rw [effect_of_not_noDraw hi] at hdraws
      cases hdraws
  · cases hu

/-- The forecasts after a line that spells a request. -/
theorem forecastNext_of_lineInstr {check : Bool} {env : Forecasts} {vars : Vars} {l : Line} {i : Instr}
    (h : lineInstr vars l = .ok i) :
    forecastNext check env l = setDest l.dest (forecastLine check env i.op l) env := by
  simp [forecastNext, lineOp_of_lineInstr h]

/-- Where a line's response is forecast, it is the forecast response of the request it spells. -/
theorem forecastLine_value {check : Bool} {env : Forecasts} {vars : Vars} (h : VarsWithin (knownVars env) vars) {l : Line}
    {i : Instr} (hi : lineInstr vars l = .ok i) {op : Op} {u : Value} (hu : (forecastLine check env op l).value = some u) :
    forecastResponse check i = some u := by
  unfold forecastLine at hu
  dsimp only at hu
  split at hu
  · rename_i j hj
    cases (lineInstr_of_within h hj).symm.trans hi
    exact hu
  · cases hu

/-- A caller that receives the response to its line still agrees with its list (10_state.md R29). -/
theorem Serves.receive_agrees {s : State} {c : Nat} {k : Caller} {l : Line} {i : Instr} (h : Serves s c k l i)
    (hk : k.Agrees s.pairingCheck) {r : BitVec 128} (hr : (effect i s).bus = some r) :
    (k.receive l.dest ((opKind i.op).ofBus r)).Agrees s.pairingCheck := by
  obtain ⟨-, hvars⟩ := hk
  refine ⟨h.pos_lt, ?_⟩
  have htake : k.prog.take (k.pos + 1) = k.prog.take k.pos ++ [l] := by simp [List.take_add_one, h.line]
  have hwithin := hvars.knownVars_within (forecastProgram_nodup _ List.nodup_nil)
  rw [Caller.receive_prog, Caller.receive_pos, htake, forecastProgram_append]
  simp only [forecastProgram, Caller.receive_vars, forecastNext_of_lineInstr h.request]
  refine hvars.setDest l.dest (Kind.ofBus_kind _ _) fun u hu => ?_
  exact forecastResponse_eq h.running (forecastLine_value hwithin h.request hu) hr

/-- A delivery leaves the programs admitted. -/
theorem Serves.callersAfter_admitted {s : State} {c : Nat} {k : Caller} {l : Line} {i : Instr} (h : Serves s c k l i)
    (r : BitVec 128) : callersRefusal s.pairingCheck (s.callersAfter c l i r) = none := by
  have hall := callersRefusal_eq_none.mp h.admitted
  exact callersRefusal_eq_none.mpr
    (State.forall_mem_callersAfter h.caller hall (hall k (List.mem_of_getElem? h.caller)))

/-! ## The statements -/

/-- Settles O51: a delivery moves one caller on in agreement with its list, a fault leaves every caller and records a sound
fault. -/
theorem stepKeepsInvariant : Obligations.StepKeepsInvariant := by
  intro s t hinv hstep
  obtain ⟨-, -, hadm, hagree⟩ := hinv
  obtain ⟨c, k, l, i, hserves, g, p, ⟨r, n, hr, rfl⟩ | ⟨e, he, rfl⟩⟩ := step_delivers_or_faults hstep
  · refine ⟨rfl, State.faultOk_of_running hserves.running, hserves.callersAfter_admitted r, ?_⟩
    have hk := hagree k (List.mem_of_getElem? hserves.caller)
    exact State.forall_mem_callersAfter hserves.caller hagree (hserves.receive_agrees hk hr)
  · have hsound : State.FaultOk { s with fault := some e, bus := none } := he ▸ effect_faultOk i hserves.running
    exact ⟨rfl, hsound, hadm, hagree⟩

/-- Settles O38: the answer is the one right after reset on the same build. -/
theorem responseIgnoresState : Obligations.ResponseIgnoresState := by
  intro check i hi
  refine ⟨(effect i (idleBlock check)).bus, (effect i (idleBlock check)).fault, fun s hs hc => ?_⟩
  have hanswer : TakesAnswer s (effect i (idleBlock check)) (effect i s) := effect_takesAnswer hi hs rfl hc
  rw [exec_of_running i hs, ← hanswer]

/-- Settles O41, by the two cases of a step. -/
theorem stepFrame : Obligations.StepFrame := by
  intro s t hstep
  obtain ⟨c, k, l, i, hserves, g, p, ⟨r, n, -, rfl⟩ | ⟨e, -, rfl⟩⟩ := step_delivers_or_faults hstep
  · refine ⟨s.callersAfter_length c l i r, rfl, rfl, c, k, l, _, hserves.caller, hserves.line,
      State.callersAfter_self hserves.caller l i r, fun e he => State.callersAfter_ne he s l i r, rfl,
      fun _ => ⟨rfl, fun name hne => ?_, fun name heq => ⟨(opKind i.op).ofBus r, ?_⟩⟩,
      fun hfault => absurd hserves.running hfault⟩
    · rw [Caller.receive_vars, getName_setDest, if_neg hne]
    · rw [Caller.receive_vars, getName_setDest, if_pos heq]
  · exact ⟨rfl, rfl, rfl, c, k, l, k, hserves.caller, hserves.line, hserves.caller, fun _ _ => rfl, rfl,
      fun hnone => (by cases hnone), fun _ => rfl⟩

/-- A ready caller has a request left. -/
theorem Serves.one_le_remaining {s : State} {c : Nat} {k : Caller} {l : Line} {i : Instr} (h : Serves s c k l i) :
    1 ≤ s.remaining :=
  calc 1 ≤ k.prog.length - k.pos := Nat.sub_pos_of_lt h.pos_lt
    _ ≤ s.remaining := List.le_sum_of_mem (List.mem_map_of_mem (List.mem_of_getElem? h.caller))

/-- Settles O45: a delivery moves one position by one, and a fault moves none. -/
theorem stepPerformsOneRequest : Obligations.StepPerformsOneRequest := by
  intro s t hstep
  obtain ⟨c, k, l, i, hserves, g, p, ⟨r, n, -, rfl⟩ | ⟨e, -, rfl⟩⟩ := step_delivers_or_faults hstep
  · have hfewer : (k.prog.length - (k.pos + 1)) + 1 = k.prog.length - k.pos := by
      have := hserves.pos_lt
      omega
    exact ⟨fun _ => sum_map_modify_add_one hserves.caller hfewer, fun hfault => absurd hserves.running hfault⟩
  · exact ⟨fun hnone => (by cases hnone), fun _ => ⟨rfl, hserves.one_le_remaining⟩⟩

/-- Settles O54: a response is 0 above its width, so the bits a caller takes are the number on the bus, and the step leaves
them under the name of the line. -/
theorem stepWritesTheResponse : Obligations.StepWritesTheResponse := by
  have whole : ∀ {i : Instr} {s : State} {r : BitVec 128}, (effect i s).bus = some r →
      ((opKind i.op).ofBus r).toNat = r.toNat := fun hr => Kind.ofBus_toNat (effect_bus_lt hr)
  refine ⟨fun i s u r hexec hr => ?_, fun s t hstep hfault => ?_⟩
  · obtain ⟨-, rfl⟩ := exec_next hexec
    refine ⟨whole hr, Kind.ofBus_kind _ _, ?_⟩
    cases i <;> rfl
  · obtain ⟨c, k, l, i, hserves, g, p, ⟨r, n, hr, rfl⟩ | ⟨e, -, rfl⟩⟩ := step_delivers_or_faults hstep
    · refine ⟨c, k, l, i, effect i s, r, _, hserves.caller, hserves.line, hserves.request,
        exec_of_running i hserves.running, hr, State.callersAfter_self hserves.caller l i r, rfl,
        fun name hname => ⟨(opKind i.op).ofBus r, ?_, whole hr, Kind.ofBus_kind _ _⟩⟩
      rw [Caller.receive_vars, getName_setDest, if_pos hname]
    · cases hfault

/-- Settles O16, by whether a fault is recorded; with one, FAULT_STATUS is one of four words, by its code and track. -/
theorem faultRegisterFields : Obligations.FaultRegisterFields := by
  intro s
  cases hs : s.fault with
  | none => simp [State.faultStatus, State.faultInfo, hs]
  | some e =>
    obtain ⟨code, track, divisor⟩ := e
    simp only [State.faultStatus, State.faultInfo, hs]
    cases code <;> cases track <;> simp [FaultCode.number, Track.bit]

/-- Settles O39, by the branches of a step that its hypotheses choose. -/
theorem stepPerformsTheLine : Obligations.StepPerformsTheLine := by
  intro s t u c k l i hadm hrun hchoose hline hrequest hexec
  have hperform : t.performNext c = .next (u.deliver c l.dest (opKind i.op)) := by
    simp only [State.performNext, hline, hrequest, hexec]
  simp only [step, State.advance, hadm, hrun, hchoose, hperform]

end Sys2Proof.Machine
end

section
/-! PROOFS of the statements of 20_memory.md: the answer of a request (R44, R53), the order of service (R45), requests of
different callers (R46), the host's bytes (R43). -/

namespace Sys2Proof.Machine

/-! ## Requests that cannot fault, and requests that do not draw -/

/-- A paired m passes the pairing check (43_remainder.md R167). -/
theorem Paired.passes {w m d : Nat} (h : Paired w m d) : pairingFails w m d = false := by
  obtain ⟨⟨hd, -⟩, rfl⟩ := h
  exact pairingPasses_iff.mpr ⟨hd, rfl⟩

theorem State.generate_fault_of_one_lt {d : BitVec 64} (h : 1 < d.toNat) (s : State) (t : Track) :
    (s.generate t d).fault = s.fault := by
  rw [State.generate_of_one_lt h, State.respond_fault]

theorem State.remainder_fault_of_paired {s : State} {t : Track} {m : Nat} {d : BitVec 64}
    (h : s.pairingCheck = false ∨ Paired t.width m d.toNat) (a : Nat) : (s.remainder t a m d).fault = s.fault := by
  rw [State.remainder_of_passes (h.imp id Paired.passes), State.respond_fault]

/-- The d operand of the 32-bit track keeps its value on the 64-bit bus. -/
theorem toNat_setWidth_divisor (d : BitVec 32) : (d.setWidth 64).toNat = d.toNat :=
  BitVec.toNat_setWidth_of_le (by decide)

/-- A request outside the fault conditions leaves the fault record (60_exceptions.md R200). -/
theorem effect_fault_of_cannotFault {i : Instr} {s : State} (h : CannotFault s.pairingCheck i) :
    (effect i s).fault = s.fault := by
  cases i with
  | mulhi32 x y => rfl
  | mulhi64 x y => rfl
  | fastDiv32 a m => rfl
  | fastDiv64 a m => rfl
  | precompute32 d => exact State.generate_fault_of_one_lt (d := d.setWidth 64) (toNat_setWidth_divisor d ▸ h) s .u32
  | precompute64 d => exact State.generate_fault_of_one_lt (d := d) h s .u64
  | fastMod32 a m d =>
    exact State.remainder_fault_of_paired (t := .u32) (d := d.setWidth 64) (toNat_setWidth_divisor d ▸ h) a.toNat
  | fastMod64 a m d => exact State.remainder_fault_of_paired (t := .u64) h a.toNat
  | isMultipleOf32 n m => exact s.testMultiple_fault _ _ _
  | isMultipleOf64 n m => exact s.testMultiple_fault _ _ _

/-- A request uses up a draw exactly where its response is one (44_divisibility.md R182). -/
theorem effect_draws_eq_iff {i : Instr} {s : State} (hs : s.fault = none) : (effect i s).draws = s.draws ↔ NoDraw i := by
  refine ⟨fun h => ?_, fun hi => ?_⟩
  · by_contra hi
    rw [effect_of_not_noDraw hi, State.respondDraw_draws] at h
    omega
  · have hanswer : TakesAnswer s (effect i s) (effect i s) := effect_takesAnswer hi hs hs rfl
    rw [hanswer]

/-- A request that neither faults nor draws puts its response on the bus and changes nothing else. -/
theorem effect_eq_with_bus {i : Instr} {s : State} (hf : (effect i s).fault = none) (hd : (effect i s).draws = s.draws) :
    ∃ r, effect i s = { s with bus := some r } := by
  rcases effect_answers_or_faults i s with ⟨r, n, h⟩ | ⟨e, h⟩
  · obtain rfl : n = s.draws := by simpa [h] using hd
    exact ⟨r, h⟩
  · simp [h] at hf

/-- Settles O34, by the two answers a request has. -/
theorem performedRequestCompletes : Obligations.PerformedRequestCompletes := by
  intro i s hs
  refine ⟨effect i s, exec_of_running i hs, ?_⟩
  rcases effect_answers_or_faults i s with ⟨r, n, h⟩ | ⟨e, h⟩
  · exact .inl (h ▸ ⟨hs, r, rfl⟩)
  · exact .inr (h ▸ ⟨⟨e, rfl⟩, rfl⟩)

/-- Settles O37: whatever a request answers, the callers, the build and the order of service stay; the fault record and the
draws change as the answer says. -/
theorem requestFrame : Obligations.RequestFrame := by
  intro i s t hexec
  obtain ⟨hs, rfl⟩ := exec_next hexec
  have frame : (effect i s).callers = s.callers ∧ (effect i s).pairingCheck = s.pairingCheck
      ∧ (effect i s).grants = s.grants ∧ (effect i s).picks = s.picks := by
    rcases effect_answers_or_faults i s with ⟨r, n, h⟩ | ⟨e, h⟩ <;> simp [h]
  obtain ⟨hcallers, hcheck, hgrants, hpicks⟩ := frame
  refine ⟨hcallers, hcheck, hgrants, hpicks, effect_fault_of_cannotFault, (effect_draws_eq_iff hs).mpr, fun hi => ?_⟩
  rw [effect_of_not_noDraw hi, State.respondDraw_draws]

/-! ## The order of service -/

/-- A grant that names a place among the ready callers picks the caller at that place. -/
theorem State.choose_of_grant {s : State} {n c : Nat} {rest : List Nat} (hg : s.grants = n :: rest)
    (h : s.readyCallers[n]? = some c) : ∃ t, s.choose = some (c, t) := by
  unfold State.choose
  split
  · rename_i hnone
    simp [hnone] at h
  · rename_i d hone
    rw [hone] at h
    obtain rfl : c = d := by simpa using List.mem_of_getElem? h
    exact ⟨s, rfl⟩
  · rename_i d ds _ hmany
    rw [hmany] at h
    have hlt : n < ds.length + 1 := (List.getElem?_eq_some_iff.mp h).1
    refine ⟨{ s with grants := rest }, ?_⟩
    simp only [hg, Nat.mod_eq_of_lt hlt, List.getD_eq_getElem?_getD, h, Option.getD_some]

/-- Settles O47: a choice is one of the ready callers, and the grant of a ready caller's place chooses it. -/
theorem anyReadyCallerMayBeServed : Obligations.AnyReadyCallerMayBeServed := by
  refine ⟨fun s t c hchoose => ?_, fun s c hready => ?_⟩
  · obtain ⟨hmem, g, p, rfl⟩ := State.choose_some hchoose
    exact ⟨State.mem_readyCallers.mp hmem, rfl⟩
  · obtain ⟨n, hn⟩ := List.mem_iff_getElem?.mp (State.mem_readyCallers.mpr hready)
    exact ⟨[n], State.choose_of_grant (s := { s with grants := [n] }) rfl hn⟩

/-! ## Requests of different callers -/

/-- The next line `l` of caller `c` spells the request `i`, to which the running block answers `r` without a draw. -/
structure Answers (s : State) (c : Nat) (l : Line) (i : Instr) (r : BitVec 128) : Prop where
  spelled : ∃ k, s.nextLine c = some (k, l) ∧ lineInstr k.vars l = .ok i
  running : s.fault = none
  noDraw : NoDraw i
  answer : effect i s = { s with bus := some r }

/-- The state after caller `c` received the response `r` to the request `i` of its line `l`. -/
def State.served (s : State) (c : Nat) (l : Line) (i : Instr) (r : BitVec 128) : State :=
  { s with bus := none, callers := s.callersAfter c l i r }

/-- A request that answers without a draw is performed by delivering its response. -/
theorem Answers.performNext {s : State} {c : Nat} {l : Line} {i : Instr} {r : BitVec 128} (h : Answers s c l i r) :
    s.performNext c = .next (s.served c l i r) := by
  obtain ⟨k, hline, hrequest⟩ := h.spelled
  simp only [State.performNext, hline, hrequest, exec_of_running i h.running, h.answer]
  rfl

/-- A request performed without a fault or a draw answered. -/
theorem answers_of_performNext {s t : State} {c : Nat} (h : s.performNext c = .next t) (hf : t.fault = none)
    (hd : t.draws = s.draws) : ∃ l i r, Answers s c l i r := by
  obtain ⟨k, l, i, hline, hrequest, hs, rfl⟩ := State.performNext_next h
  rw [State.deliver_fault] at hf
  rw [State.deliver_draws] at hd
  obtain ⟨r, hr⟩ := effect_eq_with_bus hf hd
  exact ⟨l, i, r, ⟨k, hline, hrequest⟩, hs, (effect_draws_eq_iff hs).mp hd, hr⟩

theorem State.served_nextLine_ne {c e : Nat} (h : c ≠ e) (s : State) (l : Line) (i : Instr) (r : BitVec 128) :
    (s.served c l i r).nextLine e = s.nextLine e := by
  simp [State.nextLine, State.served, State.callersAfter_ne h.symm]

/-- Serving one caller leaves the answer to the request of another (20_memory.md R46). -/
theorem Answers.served {s : State} {e : Nat} {l' : Line} {j : Instr} {q : BitVec 128} (h : Answers s e l' j q) {c : Nat}
    (hne : c ≠ e) (l : Line) (i : Instr) (r : BitVec 128) : Answers (s.served c l i r) e l' j q where
  spelled := by rw [State.served_nextLine_ne hne]; exact h.spelled
  running := h.running
  noDraw := h.noDraw
  answer := by
    have hanswer : TakesAnswer (s.served c l i r) (effect j s) (effect j (s.served c l i r)) :=
      effect_takesAnswer h.noDraw h.running h.running rfl
    rw [hanswer, h.answer]
    rfl

theorem State.served_comm {c e : Nat} (h : c ≠ e) (s : State) (l l' : Line) (i j : Instr) (r q : BitVec 128) :
    (s.served c l i r).served e l' j q = (s.served e l' j q).served c l i r := by
  simp only [State.served, State.callersAfter, List.modify_modify_ne _ _ _ h]

/-- Settles O48: serving one caller leaves the other's answer, and the two deliveries commute. -/
theorem requestsOfCallersCommute : Obligations.RequestsOfCallersCommute := by
  intro s t u c e hne ht hu htf huf htd hud
  obtain ⟨l, i, r, hc⟩ := answers_of_performNext ht htf htd
  obtain ⟨l', j, q, he⟩ := answers_of_performNext hu huf hud
  obtain rfl : s.served c l i r = t := by simpa [hc.performNext] using ht
  obtain rfl : s.served e l' j q = u := by simpa [he.performNext] using hu
  refine ⟨_, (he.served hne l i r).performNext, ?_⟩
  rw [(hc.served hne.symm l' j q).performNext, State.served_comm hne]

/-! ## The host's bytes -/

@[simp] theorem littleBytes_length (n v : Nat) : (littleBytes n v).length = n := by
  induction n generalizing v with
  | zero => rfl
  | succ n ih => simp [littleBytes, ih]

/-- The bytes of a value that fits them hold the value. -/
theorem littleValue_littleBytes {n v : Nat} (h : v < 256 ^ n) : littleValue (littleBytes n v) = v := by
  induction n generalizing v with
  | zero =>
    obtain rfl : v = 0 := by simpa using h
    rfl
  | succ n ih =>
    have hrest : v / 256 < 256 ^ n := Nat.div_lt_of_lt_mul (by rwa [← Nat.pow_succ'])
    calc littleValue (littleBytes (n + 1) v) = v % 256 + 256 * (v / 256) := by
          simp [littleBytes, littleValue, ih hrest]
      _ = v := Nat.mod_add_div v 256

/-- Byte j of a value, counted from its least significant one. -/
theorem littleBytes_getElem? {n j : Nat} (h : j < n) (v : Nat) :
    (littleBytes n v)[j]? = some (BitVec.ofNat 8 (v / 256 ^ j % 256)) := by
  induction n generalizing j v with
  | zero => cases h
  | succ n ih =>
    cases j with
    | zero =>
      have hbyte : BitVec.ofNat 8 v = BitVec.ofNat 8 (v % 256) := BitVec.eq_of_toNat_eq (by simp)
      simpa [littleBytes] using hbyte
    | succ j =>
      rw [littleBytes, List.getElem?_cons_succ, ih (Nat.lt_of_succ_lt_succ h), Nat.div_div_eq_div_mul, ← Nat.pow_succ']

/-- Settles O53: the little-endian bytes hold the value, and the big-endian ones are read from the other end. -/
theorem serialisedValueReadsBack : Obligations.SerialisedValueReadsBack := by
  refine ⟨fun order n v h => ?_, fun n v j h => littleBytes_getElem? h v, fun n v => rfl⟩
  cases order with
  | little => exact ⟨littleBytes_length n v, littleValue_littleBytes h⟩
  | big => simp [serialise, deserialise, littleValue_littleBytes h]

end Sys2Proof.Machine
end

section
/-! PROOFS of the statements of 30_encoding.md on the bus tuple: the command word (R61, R69, R74), the decoder of a request
(R66, R70), the encoder (R76), a request as one number (R71). -/

open Sys2Proof

namespace Sys2Proof

/-! ## The command word -/

/-- The decoder of a command word and the word of a mnemonic are inverse (30_encoding.md R74). -/
theorem decodeCommand_eq_some_iff {cmd : BitVec 8} {op : Op} : decodeCommand cmd = some op ↔ op.command = cmd := by
  have spelled : ∀ cmd : BitVec 8, ∀ op ∈ decodeCommand cmd, op.command = cmd := by decide
  exact ⟨spelled cmd op, fun h => h ▸ decodeCommand_command op⟩

/-- The reserved command words: RSV not 0, or one of three FUNC codes (30_encoding.md R69). -/
theorem decodeCommand_eq_none_iff {cmd : BitVec 8} :
    decodeCommand cmd = none ↔ (cmd.extractLsb' 4 4 ≠ 0#4 ∨ cmd.extractLsb' 0 3 = 5#3 ∨ cmd.extractLsb' 0 3 = 6#3
      ∨ cmd.extractLsb' 0 3 = 7#3) := by
  have reserved : ∀ f : BitVec 3, funcOfBits f = none ↔ (f = 5#3 ∨ f = 6#3 ∨ f = 7#3) := by decide
  unfold decodeCommand
  split
  · rename_i hrsv
    simp [reserved, hrsv]
  · rename_i hrsv
    simp [hrsv]

/-- Every command word from 16 on has a nonzero RSV. -/
theorem decodeCommand_ofNat_add {n : Nat} (h : n < 240) : decodeCommand (BitVec.ofNat 8 (16 + n)) = none := by
  refine decodeCommand_eq_none_iff.mpr (.inl fun hrsv => ?_)
  have hval := congrArg BitVec.toNat hrsv
  simp only [BitVec.extractLsb'_toNat, BitVec.toNat_ofNat, Nat.shiftRight_eq_div_pow] at hval
  omega

/-! ## The decoder of a request -/

theorem decode_eq_reservedCmd_iff {r : Request} : decode r = .error .reservedCmd ↔ decodeCommand r.cmd = none := by
  unfold decode
  split
  · rename_i hnone
    simp [hnone]
  · rename_i op hop
    split <;> simp [hop]

/-- The bus bits an operation does not read are 0 when each bus is below two to the width read of it. -/
theorem unreadBitsZero_iff {r : Request} {op : Op} :
    r.unreadBitsZero op = true ↔ r.x.toNat < 2 ^ op.readWidth .x ∧ r.y.toNat < 2 ^ op.readWidth .y
      ∧ r.z.toNat < 2 ^ op.readWidth .z := by
  simp [Request.unreadBitsZero, and_assoc]

theorem decode_eq_operandBits_iff {r : Request} {op : Op} (h : decodeCommand r.cmd = some op) :
    decode r = .error .operandBits ↔ ¬ r.unreadBitsZero op = true := by
  unfold decode
  rw [h]
  dsimp only
  split
  · rename_i hz
    simp [hz]
  · rename_i hz
    simp [hz]

/-! ## The encoder -/

/-- Cutting a vector to a width its value fits keeps it. -/
theorem setWidth_setWidth_of_lt {n m : Nat} {v : BitVec n} (h : v.toNat < 2 ^ m) : (v.setWidth m).setWidth n = v :=
  BitVec.eq_of_toNat_eq (by simp [Nat.mod_eq_of_lt h, Nat.mod_eq_of_lt v.isLt])

/-- Every encoding is clean: its family of lemmas, as one statement (30_encoding.md R66, R72). -/
theorem encode_clean (i : Instr) : (encode i).cmd = i.op.command ∧ (encode i).unreadBitsZero i.op = true := by
  cases i with
  | mulhi32 x y => exact Laws.CleanEncoding.mulhi32 x y
  | precompute32 d => exact Laws.CleanEncoding.precompute32 d
  | fastDiv32 a m => exact Laws.CleanEncoding.fastDiv32 a m
  | fastMod32 a m d => exact Laws.CleanEncoding.fastMod32 a m d
  | isMultipleOf32 n m => exact Laws.CleanEncoding.isMultipleOf32 n m
  | mulhi64 x y => exact Laws.CleanEncoding.mulhi64 x y
  | precompute64 d => exact Laws.CleanEncoding.precompute64 d
  | fastDiv64 a m => exact Laws.CleanEncoding.fastDiv64 a m
  | fastMod64 a m d => exact Laws.CleanEncoding.fastMod64 a m d
  | isMultipleOf64 n m => exact Laws.CleanEncoding.isMultipleOf64 n m

/-- The buses of an encoding carry its operands, each in the low bits (30_encoding.md R64, R65). -/
theorem operandsOf_encode (i : Instr) : (encode i).operandsOf i.op = i := by
  cases i <;> simp [encode, Instr.op, Request.operandsOf]

/-- Encoding what a request's buses carry keeps the bits the operation reads of each and clears the rest. -/
theorem encode_operandsOf (r : Request) (op : Op) :
    encode (r.operandsOf op)
      = ⟨op.command, (r.x.setWidth (op.readWidth .x)).setWidth 128, (r.y.setWidth (op.readWidth .y)).setWidth 64,
          (r.z.setWidth (op.readWidth .z)).setWidth 64⟩ := by
  obtain ⟨f, t⟩ := op
  cases f <;> cases t <;>
    simp [encode, Request.operandsOf, Op.readWidth, Func.slots, Bus.width, Track.width, Op.command, Track.bit, Func.bits,
      BitVec.of_length_zero]

/-- Settles O5: an encoding has the command word of its mnemonic and clean buses, and they carry its operands. -/
theorem decodeEncodeRoundTrip : Obligations.DecodeEncodeRoundTrip := by
  intro i
  obtain ⟨hcmd, hclean⟩ := encode_clean i
  have hop : decodeCommand (encode i).cmd = some i.op := decodeCommand_eq_some_iff.mpr hcmd.symm
  rw [decode_of_op hop hclean, operandsOf_encode]

/-- Settles O6: where the unread bits are 0, the bits that are read are the whole request. -/
theorem encodeDecodeRoundTrip : Obligations.EncodeDecodeRoundTrip := by
  intro r i h
  obtain ⟨op, hop, hclean, rfl⟩ := decode_ok h
  obtain ⟨hx, hy, hz⟩ := unreadBitsZero_iff.mp hclean
  rw [encode_operandsOf, setWidth_setWidth_of_lt hx, setWidth_setWidth_of_lt hy, setWidth_setWidth_of_lt hz,
    decodeCommand_eq_some_iff.mp hop]

/-! ## A request as one number -/

theorem Request.toNat_lt (r : Request) : r.toNat < 2 ^ 264 := by
  have hcmd := r.cmd.isLt
  have hx := r.x.isLt
  have hy := r.y.isLt
  have hz := r.z.isLt
  unfold Request.toNat
  omega

theorem Request.ofNat_toNat (r : Request) : Request.ofNat r.toNat = r := by
  obtain ⟨cmd, x, y, z⟩ := r
  have hcmd := cmd.isLt
  have hx := x.isLt
  have hy := y.isLt
  simp only [Request.ofNat, Request.toNat, Request.mk.injEq]
  refine ⟨BitVec.eq_of_toNat_eq ?_, BitVec.eq_of_toNat_eq ?_, BitVec.eq_of_toNat_eq ?_, BitVec.eq_of_toNat_eq ?_⟩ <;>
    rw [BitVec.toNat_ofNat] <;> omega

/-- Settles O7: the four fields stand side by side in the number, and the decoder reads them there. -/
theorem requestBitsRoundTrip : Obligations.RequestBitsRoundTrip := by
  refine ⟨fun r => ⟨r.toNat_lt, r.ofNat_toNat⟩, fun i => ?_⟩
  have hplaced : tableRequest 264 (encode i).toNat = encode i := by
    rw [tableRequest, Nat.mod_eq_of_lt (Request.toNat_lt _), Request.ofNat_toNat]
  rw [decodeTableWord, hplaced, decodeEncodeRoundTrip i]

/-- Settles O1: the decoder evaluated on each of the seven words. -/
theorem specWordsDecode : Obligations.SpecWordsDecode := by
  unfold Obligations.SpecWordsDecode
  decide

end Sys2Proof
end

section
/-! PROOFS of the statements of 30_encoding.md on lines and programs: mnemonics (R72, R74), operands (R73, R77), the admission
of programs (60_exceptions.md R206) with what the text says of a host variable, and the width of a response (R68). -/

open Sys2Proof

namespace Sys2Proof.Machine

/-! ## Command words and mnemonics -/

/-- Every unit of every track has a mnemonic. -/
theorem mem_mnemonics_ops (op : Op) : op ∈ mnemonics.map Prod.snd := by
  obtain ⟨f, t⟩ := op
  cases f <;> cases t <;> decide

theorem mnemonics_names_nodup : (mnemonics.map Prod.fst).Nodup := by decide

/-- A text is a mnemonic exactly where it is the name in an entry of the table (30_encoding.md R74). -/
theorem parseMnemonic_eq_some_iff {text : List Char} {op : Op} :
    parseMnemonic text = some op ↔ ∃ e ∈ mnemonics, e.1.toList = text ∧ e.2 = op := by
  rw [parseMnemonic, Option.map_eq_some_iff]
  constructor
  · rintro ⟨e, he, hop⟩
    exact ⟨e, List.mem_of_find?_eq_some he, by simpa using List.find?_some he, hop⟩
  · rintro ⟨e, he, htext, hop⟩
    have hfound : (mnemonics.find? fun e => e.1.toList == text).isSome = true :=
      List.find?_isSome.mpr ⟨e, he, by simpa using htext⟩
    obtain ⟨e', he'⟩ := Option.isSome_iff_exists.mp hfound
    have hname : e'.1 = e.1 := String.toList_injective ((by simpa using List.find?_some he' : _ = text).trans htext.symm)
    have hsame : e' = e := List.inj_on_of_nodup_map mnemonics_names_nodup (List.mem_of_find?_eq_some he') he hname
    exact ⟨e', he', hsame ▸ hop⟩

/-- Settles O3: the rows are checked one by one, and every mnemonic's word is among them. -/
theorem legalCommandWords : Obligations.LegalCommandWords := by
  unfold Obligations.LegalCommandWords
  intro table
  have rows : ∀ row ∈ table, row.2.2.1.command = row.1 ∧ (row.2.1, row.2.2.1) ∈ mnemonics
      ∧ ∀ b ∈ [Bus.x, .y, .z], 0 < row.2.2.1.readWidth b ↔ b ∈ row.2.2.2 := by decide
  have complete : ∀ op ∈ mnemonics.map Prod.snd, op.command ∈ table.map Prod.fst := by decide
  refine ⟨fun row hrow => ?_, fun cmd hcmd => ?_⟩
  · obtain ⟨hcmd, hname, hbuses⟩ := rows row hrow
    exact ⟨decodeCommand_eq_some_iff.mpr hcmd, hcmd, parseMnemonic_eq_some_iff.mpr ⟨_, hname, rfl, rfl⟩,
      fun b => hbuses b (by cases b <;> decide)⟩
  · refine Option.eq_none_iff_forall_ne_some.mpr fun op hop => hcmd ?_
    exact decodeCommand_eq_some_iff.mp hop ▸ complete op (mem_mnemonics_ops op)

/-- Settles O8: the table of R72 is the model's, with each mnemonic's command word. -/
theorem mnemonicsSpellCommandWords : Obligations.MnemonicsSpellCommandWords := by
  unfold Obligations.MnemonicsSpellCommandWords
  intro table
  have htable : table = mnemonics.map fun e => (e.1, e.2.command) := rfl
  refine ⟨mnemonics_names_nodup, by decide, fun cmd op => ?_, fun text op => ?_⟩
  · rw [decodeCommand_eq_some_iff]
    exact ⟨fun h => ⟨mem_mnemonics_ops op, h⟩, And.right⟩
  · simp [parseMnemonic_eq_some_iff, htable, decodeCommand_command]

/-! ## The operands of a line -/

/-- Settles O10, by whether the variable is written and fits. -/
theorem hostVariableOperand : Obligations.HostVariableOperand := by
  intro vars width name
  refine ⟨fun hnone => by simp [argValue, hnone], fun v hv => ?_⟩
  have fits : v.toNat < 2 ^ width → argValue vars width (.var name) = .ok v.toNat := fun h => by simp [argValue, hv, h]
  refine ⟨fits, fun h => by simp [argValue, hv, Nat.not_lt.mpr h], ?_, ?_⟩
  · rintro rfl -
    exact fits (Nat.two_pow_pos width)
  · rintro rfl hwidth
    exact fits (Nat.one_lt_two_pow (Nat.ne_of_gt hwidth))

@[simp] theorem fillBuses_nil (vars : Vars) (t : Track) (r : Request) : fillBuses vars t [] [] r = .ok r :=
  rfl

theorem fillBuses_lit {t : Track} {b : Bus} {n : Nat} (h : n < 2 ^ b.width t) (vars : Vars) (bs : List Bus)
    (as : List Arg) (r : Request) :
    fillBuses vars t (b :: bs) (.lit n :: as) r = fillBuses vars t bs as (putOnBus r b n) := by
  simp [fillBuses, argValue, h]

/-- A line of operands spells the request whose encoding its operands fill in. -/
theorem lineInstr_of_fillBuses {vars : Vars} {op : Op} {args : List Arg} {i : Instr}
    (h : fillBuses vars op.track op.func.slots args ⟨op.command, 0#128, 0#64, 0#64⟩ = .ok (encode i)) (dest : Option Ident) :
    lineInstr vars ⟨dest, .call op args⟩ = .ok i := by
  simp only [lineInstr, h, decodeOrRefuse, decodeEncodeRoundTrip i]

/-- Settles O9: each line fills the buses with the encoding of the request it spells. -/
theorem literalLinesSpellTheirRequest : Obligations.LiteralLinesSpellTheirRequest := by
  intro vars dest m a d
  refine ⟨fun hm ha hd => ?_, fun hm ha hd => ?_⟩
  · have hx : m < 2 ^ Bus.width .u32 .x := hm
    have hy : a < 2 ^ Bus.width .u32 .y := ha
    have hdy : d < 2 ^ Bus.width .u32 .y := hd
    have hdz : d < 2 ^ Bus.width .u32 .z := hd
    refine ⟨?_, ?_, ?_, ?_, ?_⟩ <;> refine lineInstr_of_fillBuses ?_ dest <;>
      simp [Func.slots, fillBuses_lit, hx, hy, hdy, hdz, putOnBus, encode, hm, ha, hd, Op.command, Track.bit, Func.bits,
        -Nat.reducePow]
  · have hx : m < 2 ^ Bus.width .u64 .x := hm
    have hy : a < 2 ^ Bus.width .u64 .y := ha
    have hdy : d < 2 ^ Bus.width .u64 .y := hd
    have hdz : d < 2 ^ Bus.width .u64 .z := hd
    refine ⟨?_, ?_, ?_, ?_, ?_⟩ <;> refine lineInstr_of_fillBuses ?_ dest <;>
      simp [Func.slots, fillBuses_lit, hx, hy, hdy, hdz, putOnBus, encode, Op.command, Track.bit, Func.bits]

/-! ## Admitted programs -/

/-- A list is admitted when each of its lines is, after what the lines before it assign. -/
theorem programRefusal_eq_none_iff {check : Bool} {env : Forecasts} {p : Program} :
    programRefusal check env p = none
      ↔ ∀ n l, p[n]? = some l → lineRefusal (forecastProgram check env (p.take n)) l = none := by
  induction p generalizing env with
  | nil => simp [programRefusal]
  | cons l p ih =>
    have hsplit : programRefusal check env (l :: p) = none
        ↔ lineRefusal env l = none ∧ programRefusal check (forecastNext check env l) p = none := by
      cases h : lineRefusal env l <;> simp [programRefusal, h]
    rw [hsplit, ih]
    refine ⟨fun ⟨hl, hp⟩ n => ?_, fun h => ⟨h 0 l rfl, fun n => h (n + 1)⟩⟩
    cases n with
    | zero =>
      rintro _ ⟨⟩
      exact hl
    | succ n => exact hp n

theorem launch_next_admitted {check : Bool} {progs : List Program} {s : State} (h : launch check progs = .next s) :
    ∀ p ∈ progs, programRefusal check [] p = none := by
  cases progs with
  | nil => cases h
  | cons p ps =>
    rw [launch_of_ne_nil (List.cons_ne_nil p ps)] at h
    split at h
    · cases h
    · rename_i hadm
      simpa using callersRefusal_eq_none.mp hadm

theorem launch_of_admitted {check : Bool} {progs : List Program} (hne : progs ≠ [])
    (h : ∀ p ∈ progs, programRefusal check [] p = none) :
    launch check progs = .next { State.reset with callers := progs.map Caller.start, pairingCheck := check } := by
  have hadm : callersRefusal check (progs.map Caller.start) = none := callersRefusal_eq_none.mpr (by simpa using h)
  simp [launch_of_ne_nil hne, hadm]

theorem launch_refused_of_not_admitted {check : Bool} {progs : List Program} {p : Program} (hp : p ∈ progs)
    (h : programRefusal check [] p ≠ none) : ∃ reason, launch check progs = .refused reason := by
  have hne : callersRefusal check (progs.map Caller.start) ≠ none := fun hadm =>
    h (callersRefusal_eq_none.mp hadm _ (List.mem_map_of_mem hp))
  obtain ⟨reason, hreason⟩ := Option.ne_none_iff_exists'.mp hne
  exact ⟨reason, by simp [launch_of_ne_nil (List.ne_nil_of_mem hp), hreason]⟩

/-- One line that is not admitted refuses the launch (60_exceptions.md R206). -/
theorem launch_refused_of_line {check : Bool} {progs : List Program} {before after : Program} {l : Line}
    (hp : before ++ l :: after ∈ progs) (h : lineRefusal (forecastProgram check [] before) l ≠ none) :
    ∃ reason, launch check progs = .refused reason := by
  refine launch_refused_of_not_admitted hp fun hadm => h ?_
  simpa using programRefusal_eq_none_iff.mp hadm before.length l (by simp)

/-- After admitted callers and lines, the line that is not admitted gives the reason (log 8). -/
theorem launch_refused_at {check : Bool} {callers : List Program} {before : Program} {s : State}
    (hadm : launch check (callers ++ [before]) = .next s) {l : Line} {reason : Refusal}
    (h : lineRefusal (forecastProgram check [] before) l = some reason) (after : Program) (more : List Program) :
    launch check (callers ++ (before ++ l :: after) :: more) = .refused reason := by
  have hall := launch_next_admitted hadm
  have hcallers : callersRefusal check (callers.map Caller.start) = none :=
    callersRefusal_eq_none.mpr (by simpa using fun p hp => hall p (List.mem_append_left _ hp))
  have hbefore : programRefusal check [] before = none := hall before (by simp)
  have hprogram : programRefusal check [] (before ++ l :: after) = some reason := by
    simp [programRefusal_append hbefore, programRefusal, h]
  have hreason : callersRefusal check ((callers ++ (before ++ l :: after) :: more).map Caller.start) = some reason := by
    rw [List.map_append, callersRefusal_append hcallers]
    simp [callersRefusal, hprogram]
  rw [launch_of_ne_nil (by simp), hreason]

/-- After admitted callers and lines, one more admitted line is launched. -/
theorem launch_of_last {check : Bool} {callers : List Program} {before : Program} {s : State}
    (hadm : launch check (callers ++ [before]) = .next s) {l : Line}
    (h : lineRefusal (forecastProgram check [] before) l = none) :
    launch check (callers ++ [before ++ [l]])
      = .next { State.reset with callers := (callers ++ [before ++ [l]]).map Caller.start, pairingCheck := check } := by
  have hall := launch_next_admitted hadm
  refine launch_of_admitted (by simp) fun p hp => ?_
  rcases List.mem_append.mp hp with hp | hp
  · exact hall p (List.mem_append_left _ hp)
  · obtain rfl := List.mem_singleton.mp hp
    simp [programRefusal_append (hall before (by simp)), programRefusal, h]

/-! ## Requests given as bus tuples -/

/-- A request that does not decode is refused by the decoder's reason. -/
theorem lineRefusal_raw {r : Request} {e : Reject} (hr : decode r = .error e) {dest : Option Ident}
    (hok : (⟨dest, .raw r⟩ : Line).ok = true) (env : Forecasts) :
    lineRefusal env ⟨dest, .raw r⟩ = some (refusalOf e) := by
  simp [lineRefusal, hok, hr]

theorem lineRefusal_raw_ne_none {r : Request} {e : Reject} (hr : decode r = .error e) (dest : Option Ident)
    (env : Forecasts) : lineRefusal env ⟨dest, .raw r⟩ ≠ none := by
  cases hok : (⟨dest, .raw r⟩ : Line).ok with
  | true => simp [lineRefusal_raw hr hok]
  | false => simp [lineRefusal, hok]

/-- A launch of one empty list begins. -/
theorem launch_nil (check : Bool) : ∃ s, launch check ([] ++ [[]]) = .next s :=
  ⟨_, launch_of_admitted (by simp) (by simp [programRefusal])⟩

/-- After admitted callers and lines, a last request that does not decode is refused by the decoder's reason. -/
theorem launch_refused_of_rejected_last {e : Reject} (check : Bool) (callers : List Program) (before : Program)
    (dest : Option Ident) (r : Request) (s : State) (hadm : launch check (callers ++ [before]) = .next s)
    (hr : decode r = .error e) (hok : (⟨dest, .raw r⟩ : Line).ok = true) :
    launch check (callers ++ [before ++ [⟨dest, .raw r⟩]]) = .refused (refusalOf e) :=
  launch_refused_at hadm (lineRefusal_raw hr hok _) [] []

theorem launch_refused_of_rejected_alone {e : Reject} (check : Bool) (dest : Option Ident) (r : Request)
    (hr : decode r = .error e) (hok : (⟨dest, .raw r⟩ : Line).ok = true) :
    launch check [[⟨dest, .raw r⟩]] = .refused (refusalOf e) := by
  obtain ⟨s, hs⟩ := launch_nil check
  exact launch_refused_of_rejected_last check [] [] dest r s hs hr hok

/-- A launch that holds a request that does not decode is refused, wherever it stands. -/
theorem launch_refused_of_rejected_mem {e : Reject} (check : Bool) (progs : List Program) (p : Program)
    (dest : Option Ident) (r : Request) (hp : p ∈ progs) (hl : (⟨dest, .raw r⟩ : Line) ∈ p) (hr : decode r = .error e) :
    ∃ reason, launch check progs = .refused reason := by
  obtain ⟨before, after, rfl⟩ := List.append_of_mem hl
  exact launch_refused_of_line hp (lineRefusal_raw_ne_none hr dest _)

/-- Settles O2: 240 words have a nonzero RSV, and 6 of the other 16 a reserved FUNC. -/
theorem reservedCommandsRefused : Obligations.ReservedCommandsRefused := by
  refine ⟨fun r => decode_eq_reservedCmd_iff.trans decodeCommand_eq_none_iff, ?_, launch_refused_of_rejected_alone,
    launch_refused_of_rejected_mem, launch_refused_of_rejected_last⟩
  have high : (List.range 240).filter ((fun c => (decodeCommand (BitVec.ofNat 8 c)).isNone) ∘ (16 + ·)) = List.range 240 :=
    List.filter_eq_self.mpr fun n hn => by simp [decodeCommand_ofNat_add (List.mem_range.mp hn)]
  have low : ((List.range 16).filter fun c => (decodeCommand (BitVec.ofNat 8 c)).isNone).length = 6 := by decide
  rw [show 256 = 16 + 240 from rfl, List.range_add, List.filter_append, List.length_append, low, List.filter_map, high]
  simp

/-- Settles O4: each row's widths are those its operation reads. -/
theorem strayBusBitsRefused : Obligations.StrayBusBitsRefused := by
  unfold Obligations.StrayBusBitsRefused
  intro table
  refine ⟨fun row hrow x y z => ?_, launch_refused_of_rejected_alone, launch_refused_of_rejected_mem,
    launch_refused_of_rejected_last⟩
  have rows : ∀ row ∈ table, ∃ op ∈ mnemonics.map Prod.snd, op.command = row.1
      ∧ op.readWidth .x = row.2.1 ∧ op.readWidth .y = row.2.2.1 ∧ op.readWidth .z = row.2.2.2 := by decide
  obtain ⟨op, -, hcmd, hx, hy, hz⟩ := rows row hrow
  rw [decode_eq_operandBits_iff (decodeCommand_eq_some_iff.mpr hcmd), unreadBitsZero_iff, hx, hy, hz]
  simp only [not_and_or, Nat.not_lt]

/-! ## The admission of operands -/

/-- A line's operands are admitted when there is one for each bus and each fits its bus. -/
theorem argsAdmitted_iff {env : Forecasts} {t : Track} {bs : List Bus} {as : List Arg} :
    argsAdmitted env t bs as = true
      ↔ as.length = bs.length
        ∧ ∀ (j : Nat) (b : Bus) (a : Arg), bs[j]? = some b → as[j]? = some a → argAdmitted env (b.width t) a = true := by
  induction bs generalizing as with
  | nil => cases as <;> simp [argsAdmitted]
  | cons b bs ih =>
    cases as with
    | nil => simp [argsAdmitted]
    | cons a as =>
      simp only [argsAdmitted, Bool.and_eq_true, ih, List.length_cons, Nat.add_right_cancel_iff]
      refine ⟨fun ⟨ha, hlen, has⟩ => ⟨hlen, fun j => ?_⟩,
        fun ⟨hlen, h⟩ => ⟨h 0 b a rfl rfl, hlen, fun j => h (j + 1)⟩⟩
      cases j with
      | zero =>
        rintro _ _ ⟨⟩ ⟨⟩
        exact ha
      | succ j => exact has j

theorem call_length_of_ok {dest : Option Ident} {op : Op} {args : List Arg} (h : (⟨dest, .call op args⟩ : Line).ok = true) :
    args.length = op.func.slots.length := by
  simp only [Line.ok, Bool.and_eq_true, decide_eq_true_eq] at h
  exact h.2.1

/-- A line the grammar can spell is admitted when each of its operands fits its bus. -/
theorem lineRefusal_call_of_fits {env : Forecasts} {dest : Option Ident} {op : Op} {args : List Arg}
    (hok : (⟨dest, .call op args⟩ : Line).ok = true)
    (h : ∀ (j : Nat) (b : Bus) (a : Arg), op.func.slots[j]? = some b → args[j]? = some a →
      argAdmitted env (b.width op.track) a = true) :
    lineRefusal env ⟨dest, .call op args⟩ = none := by
  simp [lineRefusal_call hok, argsAdmitted_iff.mpr ⟨call_length_of_ok hok, h⟩]

/-- A line with an operand that does not fit its bus is ill formed. -/
theorem lineRefusal_call_of_not_fits {env : Forecasts} {dest : Option Ident} {op : Op} {args : List Arg}
    (hok : (⟨dest, .call op args⟩ : Line).ok = true) {j : Nat} {b : Bus} {a : Arg} (hb : op.func.slots[j]? = some b)
    (ha : args[j]? = some a) (h : ¬ argAdmitted env (b.width op.track) a = true) :
    lineRefusal env ⟨dest, .call op args⟩ = some .illFormed := by
  have hnot : ¬ argsAdmitted env op.track op.func.slots args = true := fun hadm =>
    h ((argsAdmitted_iff.mp hadm).2 j b a hb ha)
  simp [lineRefusal_call hok, hnot]

/-- Whether or not the grammar can spell it, such a line is not admitted. -/
theorem lineRefusal_call_ne_none {env : Forecasts} {dest : Option Ident} {op : Op} {args : List Arg}
    (h : (⟨dest, .call op args⟩ : Line).ok = true → lineRefusal env ⟨dest, .call op args⟩ = some .illFormed) :
    lineRefusal env ⟨dest, .call op args⟩ ≠ none := by
  cases hok : (⟨dest, .call op args⟩ : Line).ok with
  | true => simp [h hok]
  | false => simp [lineRefusal, hok]

/-- In a line the grammar can spell each operand has its bus. -/
theorem exists_bus_of_mem {dest : Option Ident} {op : Op} {args : List Arg} {a : Arg}
    (hok : (⟨dest, .call op args⟩ : Line).ok = true) (ha : a ∈ args) :
    ∃ (j : Nat) (b : Bus), op.func.slots[j]? = some b ∧ args[j]? = some a := by
  obtain ⟨j, hj, rfl⟩ := List.getElem_of_mem ha
  have hj' : j < op.func.slots.length := call_length_of_ok hok ▸ hj
  exact ⟨j, op.func.slots[j], List.getElem?_eq_getElem hj', List.getElem?_eq_getElem hj⟩

/-! ## What the text says of a host variable -/

/-- A line changes the forecast of no variable but the one it names. -/
theorem getName_forecastNext_of_ne {check : Bool} {env : Forecasts} {l : Line} {name : Ident} (h : l.dest ≠ some name) :
    getName name (forecastNext check env l) = getName name env := by
  unfold forecastNext
  split
  · rfl
  · rw [getName_setDest, if_neg h]

/-- A variable that no line of a list names keeps its forecast. -/
theorem getName_forecastProgram_of_ne {check : Bool} {env : Forecasts} {p : Program} {name : Ident}
    (h : ∀ l ∈ p, l.dest ≠ some name) : getName name (forecastProgram check env p) = getName name env := by
  induction p generalizing env with
  | nil => rfl
  | cons l p ih =>
    rw [forecastProgram, ih fun e he => h e (List.mem_cons_of_mem _ he), getName_forecastNext_of_ne (h l List.mem_cons_self)]

/-- The last line that names a variable gives its forecast. -/
theorem getName_forecastProgram_of_last {check : Bool} {env : Forecasts} {before between : Program} {e : Line}
    {name : Ident} {op : Op} (hdest : e.dest = some name) (hop : lineOp e = some op)
    (hbetween : ∀ l ∈ between, l.dest ≠ some name) :
    getName name (forecastProgram check env (before ++ e :: between))
      = some (forecastLine check (forecastProgram check env before) op e) := by
  rw [forecastProgram_append, forecastProgram, getName_forecastProgram_of_ne hbetween, forecastNext, hop]
  simp [getName_setDest, hdest]

/-- A list that names a variable has a last line that does. -/
theorem exists_last_dest {p : Program} {name : Ident} (h : ∃ e ∈ p, e.dest = some name) :
    ∃ before e between, p = before ++ e :: between ∧ e.dest = some name ∧ ∀ l ∈ between, l.dest ≠ some name := by
  induction p with
  | nil => simp at h
  | cons l p ih =>
    by_cases hp : ∃ e ∈ p, e.dest = some name
    · obtain ⟨before, e, between, rfl, he, hbetween⟩ := ih hp
      exact ⟨l :: before, e, between, rfl, he, hbetween⟩
    · push Not at hp
      obtain ⟨e, he, hdest⟩ := h
      obtain rfl | he := List.mem_cons.mp he
      · exact ⟨[], e, p, rfl, hdest, hp⟩
      · exact absurd hdest (hp e he)

/-- A forecast value is the response of a request of its line's unit and track. -/
theorem forecastLine_value_some {check : Bool} {env : Forecasts} {l : Line} {op : Op} (hop : lineOp l = some op) {v : Value}
    (hv : (forecastLine check env op l).value = some v) : ∃ i, i.op = op ∧ forecastResponse check i = some v := by
  unfold forecastLine at hv
  dsimp only at hv
  split at hv
  · rename_i i hi
    exact ⟨i, Option.some_inj.mp ((lineOp_of_lineInstr hi).symm.trans hop), hv⟩
  · cases hv

/-- A forecast response is the one the block right after reset puts on the bus. -/
theorem forecastResponse_some {check : Bool} {i : Instr} {v : Value} (h : forecastResponse check i = some v) :
    ∃ r, (effect i (idleBlock check)).bus = some r ∧ v = (opKind i.op).ofBus r := by
  unfold forecastResponse at h
  rw [exec_of_running i rfl] at h
  dsimp only at h
  split at h
  · rename_i r hr _
    exact ⟨r, hr, (Option.some_inj.mp h).symm⟩
  · cases h

/-- A request that draws nothing is forecast to answer what is on the bus. -/
theorem forecastResponse_of_bus {check : Bool} {i : Instr} (hi : NoDraw i) {r : BitVec 128}
    (hr : (effect i (idleBlock check)).bus = some r) : forecastResponse check i = some ((opKind i.op).ofBus r) := by
  have hdraws : (effect i (idleBlock check)).draws = 0 := (effect_draws_eq_iff rfl).mpr hi
  have hexec : exec i { State.reset with pairingCheck := check } = .next (effect i (idleBlock check)) := exec_of_running i rfl
  simp only [forecastResponse, hexec, hr, hdraws]

theorem forecastLine_value_kind {check : Bool} {env : Forecasts} {l : Line} {op : Op} (hop : lineOp l = some op) {v : Value}
    (hv : (forecastLine check env op l).value = some v) : v.kind = opKind op := by
  obtain ⟨i, rfl, hi⟩ := forecastLine_value_some hop hv
  obtain ⟨r, -, rfl⟩ := forecastResponse_some hi
  exact Kind.ofBus_kind _ _

/-! ## Whether a host variable fits -/

/-- A variable whose kind fits its operand is admitted, whatever value is forecast. -/
theorem argAdmitted_of_width {check : Bool} {env env' : Forecasts} {name : Ident} {l : Line} {op : Op} {width : Nat}
    (hop : lineOp l = some op) (hf : getName name env = some (forecastLine check env' op l))
    (h : (opKind op).width ≤ width) : argAdmitted env width (.var name) = true := by
  simp only [argAdmitted, hf]
  split
  · rename_i v hv
    have hkind := forecastLine_value_kind hop hv
    have hlt := v.toNat_lt
    rw [hkind] at hlt
    exact decide_eq_true (Nat.lt_of_lt_of_le hlt (Nat.pow_le_pow_right (by decide) h))
  · exact decide_eq_true h

/-- A variable of determined value is admitted exactly where the value fits (log 7). -/
theorem argAdmitted_var_iff {env : Forecasts} {name : Ident} {f : Forecast} {v : Value} (hf : getName name env = some f)
    (hv : f.value = some v) {width : Nat} : argAdmitted env width (.var name) = true ↔ v.toNat < 2 ^ width := by
  simp [argAdmitted, hf, hv]

theorem argAdmitted_lit_iff {env : Forecasts} {width n : Nat} : argAdmitted env width (.lit n) = true ↔ n < 2 ^ width :=
  decide_eq_true_iff

theorem not_argAdmitted_of_unassigned {env : Forecasts} {name : Ident} (h : getName name env = none) (width : Nat) :
    ¬ argAdmitted env width (.var name) = true := by
  simp [argAdmitted, h]

theorem lineRefusal_of_unassigned {check : Bool} {before : Program} {dest : Option Ident} {op : Op} {args : List Arg}
    {name : Ident} (hok : (⟨dest, .call op args⟩ : Line).ok = true) (hname : Arg.var name ∈ args)
    (hbefore : ∀ l ∈ before, l.dest ≠ some name) :
    lineRefusal (forecastProgram check [] before) ⟨dest, .call op args⟩ = some .illFormed := by
  obtain ⟨j, b, hb, ha⟩ := exists_bus_of_mem hok hname
  exact lineRefusal_call_of_not_fits hok hb ha (not_argAdmitted_of_unassigned (getName_forecastProgram_of_ne hbefore) _)

/-- Settles O11: a variable that no earlier line names has no forecast. -/
theorem unassignedVariableRefusesLaunch : Obligations.UnassignedVariableRefusesLaunch := by
  refine ⟨fun check progs before after dest op args name hp hname hbefore => ?_,
    fun check callers before after more dest op args name s hadm hok hname hbefore => ?_⟩
  · exact launch_refused_of_line hp (lineRefusal_call_ne_none fun hok => lineRefusal_of_unassigned hok hname hbefore)
  · exact launch_refused_at hadm (lineRefusal_of_unassigned hok hname hbefore) after more

theorem lineRefusal_of_wide_literal {env : Forecasts} {dest : Option Ident} {op : Op} {args : List Arg} {j : Nat} {b : Bus}
    {n : Nat} (hok : (⟨dest, .call op args⟩ : Line).ok = true) (hb : op.func.slots[j]? = some b)
    (ha : args[j]? = some (.lit n)) (hn : 2 ^ b.width op.track ≤ n) :
    lineRefusal env ⟨dest, .call op args⟩ = some .illFormed :=
  lineRefusal_call_of_not_fits hok hb ha (argAdmitted_lit_iff.not.mpr (Nat.not_lt.mpr hn))

/-- Settles O12: a literal is admitted only below two to the width of its bus. -/
theorem wideLiteralRefusesLaunch : Obligations.WideLiteralRefusesLaunch := by
  refine ⟨fun check progs p dest op args j b n hp hl hb ha hn => ?_,
    fun check callers before after more dest op args j b n s hadm hok hb ha hn => ?_⟩
  · obtain ⟨before, after, rfl⟩ := List.append_of_mem hl
    exact launch_refused_of_line hp (lineRefusal_call_ne_none fun hok => lineRefusal_of_wide_literal hok hb ha hn)
  · exact launch_refused_at hadm (lineRefusal_of_wide_literal hok hb ha hn) after more

/-! ## The magic constant of the 64-bit track -/

/-- No bus carries more than 64 bits of a 32-bit request (30_encoding.md R64). -/
theorem bus_width_u32_le (b : Bus) : b.width .u32 ≤ 64 := by
  cases b <;> decide

/-- A magic constant of the 64-bit track needs more than 64 bits (41_magic_constant.md R124). -/
theorem two_pow_le_gen {d : Nat} (h : d < 2 ^ 64) (hd : 1 < d) : 2 ^ 64 ≤ gen 64 d := by
  have hquot : 2 ^ 64 ≤ (2 ^ (2 * 64) - 1) / d := (Nat.le_div_iff_mul_le (Nat.lt_of_succ_lt hd)).mpr <| calc
      2 ^ 64 * d ≤ 2 ^ 64 * (2 ^ 64 - 1) := Nat.mul_le_mul_left _ (Nat.le_pred_of_lt h)
      _ ≤ 2 ^ (2 * 64) - 1 := by norm_num
  exact Nat.le_succ_of_le hquot

/-- So every forecast response of `precompute.u64` does. -/
theorem two_pow_le_forecastResponse {check : Bool} {i : Instr} (hi : i.op = ⟨.precompute, .u64⟩) {v : Value}
    (h : forecastResponse check i = some v) : 2 ^ 64 ≤ v.toNat := by
  cases i with
  | precompute64 d =>
    obtain ⟨r, hr, rfl⟩ := forecastResponse_some h
    rw [Kind.ofBus_toNat (effect_bus_lt hr)]
    change ((idleBlock check).generate .u64 d).bus = some r at hr
    rcases Nat.lt_or_ge 1 d.toNat with hd | hd
    · rw [State.generate_of_one_lt hd] at hr
      obtain rfl := Option.some_inj.mp hr
      have hlt : gen Track.u64.width d.toNat < 2 ^ 128 := gen_lt .u64 hd
      rw [BitVec.toNat_ofNat, Nat.mod_eq_of_lt hlt]
      exact two_pow_le_gen d.isLt hd
    · rw [State.generate_of_le_one hd] at hr
      cases hr
  | _ => cases hi

/-- A variable last assigned by `precompute.u64` fits no operand of the 32-bit track, by its value where there is one and
by its width where there is none (log 7). -/
theorem not_argAdmitted_crossTrack {check : Bool} {env env' : Forecasts} {name : Ident} {l : Line}
    (hop : lineOp l = some ⟨.precompute, .u64⟩)
    (hf : getName name env = some (forecastLine check env' ⟨.precompute, .u64⟩ l)) (b : Bus) :
    ¬ argAdmitted env (b.width .u32) (.var name) = true := by
  have hwidth := bus_width_u32_le b
  cases hv : (forecastLine check env' ⟨.precompute, .u64⟩ l).value with
  | some v =>
    obtain ⟨i, hi, hresponse⟩ := forecastLine_value_some hop hv
    rw [argAdmitted_var_iff hf hv, Nat.not_lt]
    calc 2 ^ b.width .u32 ≤ 2 ^ 64 := Nat.pow_le_pow_right (by decide) hwidth
      _ ≤ v.toNat := two_pow_le_forecastResponse hi hresponse
  | none =>
    have hkind : (forecastLine check env' ⟨.precompute, .u64⟩ l).kind.width = 128 := rfl
    simp only [argAdmitted, hf, hv, hkind, decide_eq_true_eq]
    omega

theorem lineRefusal_crossTrack {check : Bool} {before between : Program} {e : Line} {name : Ident} {dest : Option Ident}
    {func : Func} {args : List Arg} (hdest : e.dest = some name) (hop : lineOp e = some ⟨.precompute, .u64⟩)
    (hbetween : ∀ l ∈ between, l.dest ≠ some name) (hok : (⟨dest, .call ⟨func, .u32⟩ args⟩ : Line).ok = true)
    (hname : Arg.var name ∈ args) :
    lineRefusal (forecastProgram check [] (before ++ e :: between)) ⟨dest, .call ⟨func, .u32⟩ args⟩ = some .illFormed := by
  obtain ⟨j, b, hb, ha⟩ := exists_bus_of_mem hok hname
  exact lineRefusal_call_of_not_fits hok hb ha
    (not_argAdmitted_crossTrack hop (getName_forecastProgram_of_last hdest hop hbetween) b)

/-- One line of literals that fit is launched. -/
theorem launch_of_literals {check : Bool} {dest : Option Ident} {op : Op} {args : List Arg}
    (hok : (⟨dest, .call op args⟩ : Line).ok = true)
    (h : ∀ (j : Nat) (b : Bus) (a : Arg), op.func.slots[j]? = some b → args[j]? = some a →
      ∃ n, a = .lit n ∧ n < 2 ^ b.width op.track) :
    ∃ s, launch check ([] ++ [[] ++ [⟨dest, .call op args⟩]]) = .next s := by
  obtain ⟨s, hs⟩ := launch_nil check
  refine ⟨_, launch_of_last hs (lineRefusal_call_of_fits hok fun j b a hb ha => ?_)⟩
  obtain ⟨n, rfl, hn⟩ := h j b a hb ha
  exact argAdmitted_lit_iff.mpr hn

/-- Settles O13: the constant fits no operand of the later line; P7 is one such launch. -/
theorem crossTrackConstantRefusesLaunch : Obligations.CrossTrackConstantRefusesLaunch := by
  refine ⟨fun check d a hd ha => ?_, fun check name callers before e between after more dest func args s hdest hop hadm
    hbetween hok hname => launch_refused_at hadm (lineRefusal_crossTrack hdest hop hbetween hok hname) after more⟩
  have hconstant : ∃ s, launch check ([] ++ [[⟨some ['m'], .call ⟨.precompute, .u64⟩ [.lit d]⟩]]) = .next s := by
    refine launch_of_literals rfl ?_
    rintro (_ | j) b a ⟨⟩ ⟨⟩
    exact ⟨d, rfl, hd.2⟩
  obtain ⟨s, hs⟩ := hconstant
  exact launch_refused_at hs (lineRefusal_crossTrack (before := []) (name := ['m']) rfl rfl (by simp) rfl (by simp)) [] []

/-! ## Programs that fit by their widths -/

/-- An operand that fits by its width is admitted. -/
theorem argAdmitted_of_argFits {check : Bool} {before : Program} {width : Nat} {a : Arg}
    (hops : ∀ e ∈ before, ∃ op, lineOp e = some op) (h : ArgFits before width a) :
    argAdmitted (forecastProgram check [] before) width a = true := by
  cases a with
  | lit n => exact argAdmitted_lit_iff.mpr h
  | var name =>
    obtain ⟨hassigned, hwidth⟩ := h
    obtain ⟨pre, e, between, rfl, hdest, hbetween⟩ := exists_last_dest hassigned
    have hmem : e ∈ pre ++ e :: between := by simp
    obtain ⟨op, hop⟩ := hops e hmem
    exact argAdmitted_of_width hop (getName_forecastProgram_of_last hdest hop hbetween) (hwidth e hmem hdest op hop)

theorem LineFits.lineOp {before : Program} {l : Line} (h : LineFits before l) : ∃ op, lineOp l = some op := by
  obtain ⟨dest, body⟩ := l
  cases body with
  | call op args => exact ⟨op, rfl⟩
  | raw r =>
    obtain ⟨i, hi⟩ := h
    obtain ⟨op, hop, -, -⟩ := decode_ok hi
    exact ⟨op, hop⟩

/-- After lines that each name a unit, a line that fits by its widths is admitted. -/
theorem lineRefusal_of_lineFits {check : Bool} {before : Program} {l : Line} (hops : ∀ e ∈ before, ∃ op, lineOp e = some op)
    (hok : l.ok = true) (h : LineFits before l) : lineRefusal (forecastProgram check [] before) l = none := by
  obtain ⟨dest, body⟩ := l
  cases body with
  | call op args => exact lineRefusal_call_of_fits hok fun j b a hb ha => argAdmitted_of_argFits hops (h j b a hb ha)
  | raw r =>
    obtain ⟨i, hi⟩ := h
    simp [lineRefusal, hok, hi]

/-- Settles O55: a line that fits is admitted after the lines before it. -/
theorem wellFormedProgramsAreLaunched : Obligations.WellFormedProgramsAreLaunched := by
  intro check progs hne hfits
  refine launch_of_admitted hne fun p hp => programRefusal_eq_none_iff.mpr fun n l hl => ?_
  obtain ⟨hok, hline⟩ := hfits p hp n l hl
  refine lineRefusal_of_lineFits (fun e he => ?_) hok hline
  obtain ⟨m, hm⟩ := List.mem_iff_getElem?.mp (List.mem_of_mem_take he)
  exact (hfits p hp m e hm).2.lineOp

/-! ## Variables whose value the text determines -/

theorem forecastLine_value_of_lineInstr {check : Bool} {env : Forecasts} {l : Line} {i : Instr}
    (h : lineInstr (knownVars env) l = .ok i) (op : Op) :
    (forecastLine check env op l).value = forecastResponse check i := by
  simp only [forecastLine, h]

theorem lineRefusal_of_large_value {env : Forecasts} {dest : Option Ident} {op : Op} {args : List Arg} {j : Nat} {b : Bus}
    {name : Ident} {f : Forecast} {v : Value} (hok : (⟨dest, .call op args⟩ : Line).ok = true)
    (hb : op.func.slots[j]? = some b) (ha : args[j]? = some (.var name)) (hf : getName name env = some f)
    (hv : f.value = some v) (hlarge : 2 ^ b.width op.track ≤ v.toNat) :
    lineRefusal env ⟨dest, .call op args⟩ = some .illFormed :=
  lineRefusal_call_of_not_fits hok hb ha ((argAdmitted_var_iff hf hv).not.mpr (Nat.not_lt.mpr hlarge))

/-- The text determines the quotient of a line of literals. -/
theorem forecast_fastDiv64 (check : Bool) {a m : Nat} (ha : a < 2 ^ 64) (hm : m < 2 ^ 128) (name : Ident) :
    ∃ f v, getName name (forecastProgram check [] [⟨some name, .call ⟨.fastDiv, .u64⟩ [.lit a, .lit m]⟩]) = some f
      ∧ f.value = some v ∧ v.toNat = m * a / 2 ^ 128 := by
  obtain ⟨-, -, hspelled, -⟩ := (literalLinesSpellTheirRequest [] (some name) m a a).2 hm ha ha
  have hquotient : mulhi 64 (BitVec.ofNat 128 m).toNat (BitVec.ofNat 64 a).toNat = m * a / 2 ^ 128 := by
    rw [BitVec.toNat_ofNat, BitVec.toNat_ofNat, Nat.mod_eq_of_lt hm, Nat.mod_eq_of_lt ha, mulhi]
  have hbus : (effect (.fastDiv64 (BitVec.ofNat 64 a) (BitVec.ofNat 128 m)) (idleBlock check)).bus
      = some (BitVec.ofNat 128 (m * a / 2 ^ 128)) := by
    rw [← hquotient]
    rfl
  have hforecast := getName_forecastProgram_of_last (check := check) (env := []) (before := []) (between := [])
    (e := ⟨some name, .call ⟨.fastDiv, .u64⟩ [.lit a, .lit m]⟩) rfl rfl (by simp)
  have hlt : m * a / 2 ^ 128 < 2 ^ 64 := mulhi_lt (w := 64) hm ha
  refine ⟨_, _, hforecast, (forecastLine_value_of_lineInstr (env := []) hspelled _).trans
    (forecastResponse_of_bus (i := .fastDiv64 _ _) trivial hbus), ?_⟩
  rw [Kind.ofBus_toNat (effect_bus_lt hbus), BitVec.toNat_ofNat, Nat.mod_eq_of_lt (hlt.trans (by decide))]

/-- Settles O56: a determined value is compared with the width of its bus; the quotient of the first clause is one. -/
theorem variableFitsByValue : Obligations.VariableFitsByValue := by
  refine ⟨fun check a m ha hm => ?_, fun check callers before dest op args s hadm hok => ⟨?_, fun h => ?_⟩⟩
  · have hquotient : ∃ s, launch check ([] ++ [[⟨some ['q'], .call ⟨.fastDiv, .u64⟩ [.lit a, .lit m]⟩]]) = .next s := by
      refine launch_of_literals rfl ?_
      rintro (_ | _ | j) b _ ⟨⟩ ⟨⟩
      · exact ⟨a, rfl, ha⟩
      · exact ⟨m, rfl, hm⟩
    obtain ⟨s, hs⟩ := hquotient
    obtain ⟨f, v, hf, hv, hval⟩ := forecast_fastDiv64 check ha hm ['q']
    rw [← hval]
    refine ⟨fun hfits => launch_of_last hs (lineRefusal_call_of_fits rfl ?_),
      fun hlarge => launch_refused_at hs (lineRefusal_of_large_value (op := ⟨.precompute, .u32⟩) (j := 0) (b := .y)
        rfl rfl rfl hf hv hlarge) [] []⟩
    rintro (_ | j) b _ ⟨⟩ ⟨⟩
    exact (argAdmitted_var_iff hf hv).mpr hfits
  · rintro j b name v hb ha ⟨f, hf, hv⟩ hlarge
    exact launch_refused_at hadm (lineRefusal_of_large_value hok hb ha hf hv hlarge) [] []
  · refine launch_of_last hadm (lineRefusal_call_of_fits hok fun j b a hb ha => ?_)
    rcases h j b a hb ha with ⟨n, rfl, hn⟩ | ⟨name, v, rfl, ⟨f, hf, hv⟩, hfits⟩
    · exact argAdmitted_lit_iff.mpr hn
    · exact (argAdmitted_var_iff hf hv).mpr hfits

/-! ## The width of a response, and the request placed -/

/-- A bus value of one bit is 0 or 1. -/
theorem eq_zero_or_one_of_toNat_lt {r : BitVec 128} (h : r.toNat < 2 ^ 1) : r = 0#128 ∨ r = 1#128 := by
  rcases Nat.lt_or_ge r.toNat 1 with hzero | hone
  · exact .inl (BitVec.eq_of_toNat_eq (Nat.lt_one_iff.mp hzero))
  · exact .inr (BitVec.eq_of_toNat_eq (Nat.le_antisymm (Nat.le_of_lt_succ h) hone))

/-- Settles O33: a response is below two to the width of its kind, which for a boolean leaves 0 and 1. -/
theorem responseIsZeroExtended : Obligations.ResponseIsZeroExtended := by
  intro i s t r hexec hr
  obtain ⟨-, rfl⟩ := exec_next hexec
  have hlt : r.toNat < 2 ^ (opKind i.op).width := effect_bus_lt hr
  cases i with
  | isMultipleOf32 n m => exact eq_zero_or_one_of_toNat_lt hlt
  | isMultipleOf64 n m => exact eq_zero_or_one_of_toNat_lt hlt
  | _ => exact hlt

theorem decode_of_decodeTableWord {nbits w : Nat} {i : Instr} (h : decodeTableWord nbits w = some i) :
    decode (tableRequest nbits w) = .ok i := by
  unfold decodeTableWord at h
  split at h
  · cases h
    assumption
  · cases h

/-- One request that decodes is admitted, under the name `r`. -/
theorem programRefusal_oneRequest {r : Request} {i : Instr} (h : decode r = .ok i) (check : Bool) :
    programRefusal check [] (oneRequest r) = none := by
  have hok : (⟨some ['r'], .raw r⟩ : Line).ok = true := rfl
  simp [oneRequest, programRefusal, lineRefusal, hok, h]

/-- Settles O40: the placed request is the only one ready, so the step performs it. -/
theorem placedWordIsPerformed : Obligations.PlacedWordIsPerformed := by
  intro s u nbits w i hword hexec
  have hdecode := decode_of_decodeTableWord hword
  have hadm : (s.withFetchWord nbits w).refusal = none :=
    callersRefusal_eq_none.mpr (by simpa using programRefusal_oneRequest hdecode s.pairingCheck)
  have hrequest : lineInstr [] ⟨some ['r'], .raw (tableRequest nbits w)⟩ = .ok i := by
    simp [lineInstr, decodeOrRefuse, hdecode]
  obtain ⟨hrun, -⟩ := exec_next hexec
  exact stepPerformsTheLine (s.withFetchWord nbits w) _ u 0 _ _ i hadm hrun rfl rfl hrequest hexec

end Sys2Proof.Machine
end

section
/-! PROOFS of the statements of 40_multiply_high.md: the bound of the product (R101), the two datapaths (R105, R106) and the
requests (R103, R104). -/

open Sys2Proof

namespace Sys2Proof.Machine

/-! ## The function and its datapaths -/

/-- Settles O17: the product of the operands' bounds is 2^(3w). -/
theorem multiplyHighFits : Obligations.MultiplyHighFits := by
  intro w x y hx hy
  refine ⟨?_, mulhi_lt hx hy⟩
  calc x * y < 2 ^ (2 * w) * 2 ^ w := Nat.mul_lt_mul'' hx hy
    _ = 2 ^ (3 * w) := by ring

/-- Two factors whose widths together are at most 128 bits have their exact product in 128 bits. -/
theorem toNat_widening_mul {n k : Nat} (h : n + k ≤ 128) (x : BitVec n) (y : BitVec k) :
    (x.setWidth 128 * y.setWidth 128).toNat = x.toNat * y.toNat := by
  have hprod : x.toNat * y.toNat < 2 ^ 128 :=
    calc x.toNat * y.toNat < 2 ^ n * 2 ^ k := Nat.mul_lt_mul'' x.isLt y.isLt
      _ = 2 ^ (n + k) := (Nat.pow_add 2 n k).symm
      _ ≤ 2 ^ 128 := Nat.pow_le_pow_right (by decide) h
  rw [BitVec.toNat_mul, BitVec.toNat_setWidth_of_le (by omega), BitVec.toNat_setWidth_of_le (by omega),
    Nat.mod_eq_of_lt hprod]

/-- The last step of both datapaths cuts nothing off an upper part that fits. -/
theorem toNat_ushiftRight_setWidth_of_lt {k : Nat} {v : BitVec 128} (h : v.toNat / 2 ^ 64 < 2 ^ k) :
    ((v >>> 64).setWidth k).toNat = v.toNat / 2 ^ 64 := by
  rw [BitVec.toNat_setWidth, BitVec.toNat_ushiftRight, Nat.shiftRight_eq_div_pow, Nat.mod_eq_of_lt h]

/-- Settles O18: the 128-bit product is exact, and its upper part fits in 32 bits. -/
theorem wideDatapathIsMultiplyHigh : Obligations.WideDatapathIsMultiplyHigh := by
  intro x y
  obtain ⟨hprod, hfits⟩ := multiplyHighFits 32 x.toNat y.toNat x.isLt y.isLt
  have hexact := toNat_widening_mul (by decide) x y
  refine ⟨hprod, ?_⟩
  rw [mulhiWide32, toNat_ushiftRight_setWidth_of_lt (by rwa [hexact]), hexact, mulhi]

/-- A 128-bit value is the sum of its limbs (20_memory.md R42). -/
theorem toNat_eq_limbs (x : BitVec 128) : x.toNat = (limbHigh x).toNat * 2 ^ 64 + (limbLow x).toNat := by
  have hx := x.isLt
  simp only [limbHigh, limbLow, BitVec.extractLsb'_toNat, Nat.shiftRight_eq_div_pow]
  omega

/-- The sum of the partial products of R106 at the largest limbs. -/
theorem limbSum_le {x₁ x₀ y : Nat} (h₁ : x₁ < 2 ^ 64) (h₀ : x₀ < 2 ^ 64) (hy : y < 2 ^ 64) :
    x₁ * y + x₀ * y / 2 ^ 64 ≤ 2 ^ 128 - 2 ^ 64 - 1 := by
  have hupper : x₁ * y ≤ (2 ^ 64 - 1) * (2 ^ 64 - 1) := Nat.mul_le_mul (by omega) (by omega)
  have hlower : x₀ * y ≤ (2 ^ 64 - 1) * (2 ^ 64 - 1) := Nat.mul_le_mul (by omega) (by omega)
  omega

/-- R106: the sum of the partial products has no carry out of 128 bits. -/
theorem limbSum64_toNat (x : BitVec 128) (y : BitVec 64) :
    (limbSum64 x y).toNat = (limbHigh x).toNat * y.toNat + (limbLow x).toNat * y.toNat / 2 ^ 64 := by
  have hsum := limbSum_le (limbHigh x).isLt (limbLow x).isLt y.isLt
  rw [limbSum64, BitVec.toNat_add, BitVec.toNat_ushiftRight, toNat_widening_mul (by decide), toNat_widening_mul (by decide),
    Nat.shiftRight_eq_div_pow, Nat.mod_eq_of_lt (by omega)]

/-- The fraction that the shift of the lower partial product drops does not reach the upper part (R106). -/
theorem mulhi64_of_limbs (x₁ x₀ y : Nat) :
    mulhi 64 (x₁ * 2 ^ 64 + x₀) y = (x₁ * y + x₀ * y / 2 ^ 64) / 2 ^ 64 :=
  calc (x₁ * 2 ^ 64 + x₀) * y / 2 ^ (2 * 64) = (x₀ * y + x₁ * y * 2 ^ 64) / 2 ^ 64 / 2 ^ 64 := by
        rw [Nat.div_div_eq_div_mul]; ring_nf
    _ = (x₁ * y + x₀ * y / 2 ^ 64) / 2 ^ 64 := by
        rw [Nat.add_mul_div_right _ _ (by decide), Nat.add_comm]

/-- Settles O19: the 128-bit sum is exact, and its upper half is the upper part of the product of the limbs. -/
theorem limbDatapathIsMultiplyHigh : Obligations.LimbDatapathIsMultiplyHigh := by
  intro x y
  have hsum := limbSum64_toNat x y
  have hle : (limbSum64 x y).toNat ≤ 2 ^ 128 - 2 ^ 64 - 1 :=
    hsum ▸ limbSum_le (limbHigh x).isLt (limbLow x).isLt y.isLt
  refine ⟨hsum, hle, ?_⟩
  rw [mulhiLimbs64, toNat_ushiftRight_setWidth_of_lt (by omega), hsum, toNat_eq_limbs x, mulhi64_of_limbs]

/-! ## The requests -/

/-- Settles O23: the buses hold the encoding of the request, and a running block answers with `MULHI_w`
written out. -/
theorem multiplyHighResponds : Obligations.MultiplyHighResponds := by
  intro s hs
  exact ⟨fun x y => ⟨decodeEncodeRoundTrip (.mulhi32 x y), exec_of_running (.mulhi32 x y) hs⟩,
    fun x y => ⟨decodeEncodeRoundTrip (.mulhi64 x y), exec_of_running (.mulhi64 x y) hs⟩⟩

end Sys2Proof.Machine
end

section
/-! PROOFS of the statements of 41_magic_constant.md: the properties of the magic constant (R124), the requests of the
generator (R122, R123) and the requests that return a value (R121, R144, R168, R185). -/

open Sys2Proof

namespace Sys2Proof.Machine

/-! ## The magic constant as a function of the divisor -/

/-- The magic constant is the ceiling of 2^(2w)/d (41_magic_constant.md R124). -/
theorem gen_eq_ceil {d : Nat} (hd : 0 < d) (w : Nat) : gen w d = (2 ^ (2 * w) + d - 1) / d := by
  have hpos := Nat.two_pow_pos (2 * w)
  rw [gen, ← Nat.add_div_right _ hd, Nat.sub_add_comm hpos]

/-- Just below a multiple of the divisor the floor is one less, elsewhere it is the same: the two cases of R124. -/
theorem pred_div_of_dvd {n d : Nat} (hn : 0 < n) (h : d ∣ n) : (n - 1) / d = n / d - 1 := by
  obtain ⟨p, rfl⟩ : ∃ p, n = p + 1 := ⟨n - 1, by omega⟩
  rw [Nat.succ_div_of_dvd h, Nat.add_sub_cancel, Nat.add_sub_cancel]

theorem pred_div_of_not_dvd {n d : Nat} (hn : 0 < n) (h : ¬ d ∣ n) : (n - 1) / d = n / d := by
  obtain ⟨p, rfl⟩ : ∃ p, n = p + 1 := ⟨n - 1, by omega⟩
  rw [Nat.succ_div_of_not_dvd h, Nat.add_sub_cancel]

theorem gen_antitone (w : Nat) {d e : Nat} (hd : 0 < d) (h : d ≤ e) : gen w e ≤ gen w d :=
  Nat.succ_le_succ (Nat.div_le_div_left h hd)

/-- Divisors whose product is at most the dividend have different quotients: the larger one's quotient is at least the
smaller divisor, so it leaves room for one more of the smaller. -/
theorem div_lt_div_of_mul_le {n d e : Nat} (hd : 0 < d) (h : d < e) (hn : d * e ≤ n) : n / e < n / d := by
  have hquot : d ≤ n / e := (Nat.le_div_iff_mul_le (hd.trans h)).mpr hn
  refine (Nat.le_div_iff_mul_le hd).mpr ?_
  calc (n / e + 1) * d = n / e * d + d := by ring
    _ ≤ n / e * d + n / e := by omega
    _ = n / e * (d + 1) := by ring
    _ ≤ n / e * e := Nat.mul_le_mul_left _ h
    _ ≤ n := Nat.div_mul_le_self n e

/-- Two words of w bits have a product below 2^(2w). -/
theorem mul_lt_two_pow_two_mul {w d e : Nat} (hd : d < 2 ^ w) (he : e < 2 ^ w) : d * e < 2 ^ (2 * w) :=
  calc d * e < 2 ^ w * 2 ^ w := Nat.mul_lt_mul'' hd he
    _ = 2 ^ (2 * w) := by ring

/-- The magic constant is strictly decreasing in the divisor (41_magic_constant.md R124). -/
theorem gen_strictAnti {w d e : Nat} (hd : ValidDivisor w d) (he : ValidDivisor w e) (h : d < e) : gen w e < gen w d :=
  Nat.succ_lt_succ
    (div_lt_div_of_mul_le (Nat.lt_of_succ_lt hd.1) h (Nat.le_pred_of_lt (mul_lt_two_pow_two_mul hd.2 he.2)))

/-! ## Its bounds, each the value at one end of the divisors -/

theorem gen_two {w : Nat} (hw : w ≠ 0) : gen w 2 = 2 ^ (2 * w - 1) := by
  have hdouble : 2 * 2 ^ (2 * w - 1) = 2 ^ (2 * w) := mul_pow_sub_one (by omega) 2
  have hpos := Nat.two_pow_pos (2 * w - 1)
  unfold gen
  omega

/-- The largest divisor: `2^(2w) = (2^w-1)(2^w+1) + 1` (41_magic_constant.md R124). -/
theorem gen_two_pow_sub_one {w : Nat} (hw : w ≠ 0) : gen w (2 ^ w - 1) = 2 ^ w + 2 := by
  have hfactor : 2 ^ (2 * w) - 1 = (2 ^ w + 1) * (2 ^ w - 1) := by
    rw [← Nat.sq_sub_sq, ← pow_mul, Nat.mul_comm, one_pow]
  have hpos : 0 < 2 ^ w - 1 := Nat.sub_pos_of_lt (Nat.one_lt_two_pow hw)
  rw [gen, hfactor, Nat.mul_div_cancel _ hpos]

theorem ValidDivisor.width_ne_zero {w d : Nat} (h : ValidDivisor w d) : w ≠ 0 := by
  obtain ⟨htwo, hlt⟩ := h
  rintro rfl
  omega

theorem two_pow_add_two_le_gen {w d : Nat} (h : ValidDivisor w d) : 2 ^ w + 2 ≤ gen w d := by
  rw [← gen_two_pow_sub_one h.width_ne_zero]
  exact gen_antitone w (Nat.lt_of_succ_lt h.1) (Nat.le_pred_of_lt h.2)

theorem gen_le_two_pow {w d : Nat} (h : ValidDivisor w d) : gen w d ≤ 2 ^ (2 * w - 1) := by
  rw [← gen_two h.width_ne_zero]
  exact gen_antitone w Nat.two_pos h.1

/-- Settles O20: the bounds are the values at d = 2^w - 1 and d = 2, and two valid divisors have a product below 2^(2w). -/
theorem magicConstantProperties : Obligations.MagicConstantProperties := by
  intro t d hd
  have hpos : 0 < 2 ^ (2 * t.width) := Nat.two_pow_pos _
  have hlower := two_pow_add_two_le_gen hd
  exact ⟨gen_eq_ceil (Nat.lt_of_succ_lt hd.1) _, pred_div_of_dvd hpos, pred_div_of_not_dvd hpos,
    hlower, gen_le_two_pow hd, gen_two hd.width_ne_zero, gen_two_pow_sub_one hd.width_ne_zero,
    gen_lt t hd.1, Nat.lt_of_succ_lt hlower, fun e he h => gen_strictAnti hd he h,
    fun hnext => mul_lt_two_pow_two_mul hd.2 hnext.2⟩

/-! ## The requests -/

/-- The 32-bit generator on its own operand: the magic constant above the check (41_magic_constant.md R122). -/
theorem generate_u32_of_one_lt {d : BitVec 32} (h : 1 < d.toNat) (s : State) :
    s.generate .u32 (d.setWidth 64) = s.respond (gen 32 d.toNat) := by
  rw [State.generate_of_one_lt (toNat_setWidth_divisor d ▸ h), toNat_setWidth_divisor]
  rfl

theorem generate_u32_of_le_one {d : BitVec 32} (h : d.toNat ≤ 1) (s : State) :
    s.generate .u32 (d.setWidth 64) = s.raiseFault .divisorLe1 .u32 (BitVec.ofNat 64 d.toNat) := by
  rw [State.generate_of_le_one (toNat_setWidth_divisor d ▸ h), ← BitVec.ofNat_toNat]

/-- Settles O24: the buses hold the encoding of the request, and the generator's one check separates its two answers. -/
theorem precomputeRespondsOrFaults : Obligations.PrecomputeRespondsOrFaults := by
  intro s hs
  refine ⟨fun d => ⟨decodeEncodeRoundTrip (.precompute32 d), fun h => ?_, fun h => ?_⟩,
    fun d => ⟨decodeEncodeRoundTrip (.precompute64 d), fun h => ?_, fun h => ?_⟩⟩
  · rw [exec_of_running _ hs, effect, generate_u32_of_one_lt h]
    rfl
  · rw [exec_of_running _ hs, effect, generate_u32_of_le_one h]
    rfl
  · rw [exec_of_running _ hs, effect, State.generate_of_one_lt h]
    rfl
  · rw [exec_of_running _ hs, effect, State.generate_of_le_one h]
    rfl

/-- Settles O35: of the two answers a request has, the fault would be recorded. -/
theorem honouredRequestReturnsValue : Obligations.HonouredRequestReturnsValue := by
  intro i s hs hcannot
  have hfault : (effect i s).fault = none := (effect_fault_of_cannotFault hcannot).trans hs
  rcases effect_answers_or_faults i s with ⟨r, n, h⟩ | ⟨e, h⟩
  · exact ⟨effect i s, r, exec_of_running i hs, hfault, by rw [h]⟩
  · simp [h] at hfault

end Sys2Proof.Machine
end

section
/-! PROOFS of the statements of 42_quotient.md: the requests (R140, R141) and the exactness of the quotient (R142). -/

open Sys2Proof

namespace Sys2Proof.Machine

/-! ## The rounding of the magic constant does not reach the quotient -/

/-- The magic constant overshoots 2^(2w)/d by less than one, so its product with d overshoots 2^(2w) by less than d. -/
theorem exists_gen_mul_eq {d : Nat} (hd : 0 < d) (w : Nat) : ∃ e < d, gen w d * d = 2 ^ (2 * w) + e := by
  have hlower : 2 ^ (2 * w) - 1 < gen w d * d := Nat.mul_comm d _ ▸ Nat.lt_mul_div_succ _ hd
  have hupper : gen w d * d ≤ 2 ^ (2 * w) - 1 + d := by
    rw [gen, Nat.succ_mul]
    exact Nat.add_le_add_right (Nat.div_mul_le_self _ d) d
  have hpos := Nat.two_pow_pos (2 * w)
  exact ⟨gen w d * d - 2 ^ (2 * w), by omega, by omega⟩

/-- For a dividend a of w bits the overshoot, taken a times, stays below 2^(2w) and is dropped (42_quotient.md R142). -/
theorem mulhi_gen_eq_div {w d a : Nat} (hd : ValidDivisor w d) (ha : a < 2 ^ w) : mulhi w (gen w d) a = a / d := by
  have hpos : 0 < d := Nat.lt_of_succ_lt hd.1
  obtain ⟨e, hlt, hgen⟩ := exists_gen_mul_eq hpos w
  have hsmall : a * e < 2 ^ (2 * w) := mul_lt_two_pow_two_mul ha (hlt.trans hd.2)
  calc mulhi w (gen w d) a = gen w d * a * d / (2 ^ (2 * w) * d) := (Nat.mul_div_mul_right _ _ hpos).symm
    _ = (2 ^ (2 * w) * a + a * e) / 2 ^ (2 * w) / d := by
        rw [Nat.div_div_eq_div_mul, Nat.mul_right_comm, hgen, Nat.add_mul, Nat.mul_comm e]
    _ = a / d := by rw [Nat.mul_add_div (Nat.two_pow_pos _), Nat.div_eq_of_lt hsmall, Nat.add_zero]

/-! ## The requests -/

/-- Settles O25: the buses hold the encoding of the request, and a running block answers with `MULHI_w` written out. -/
theorem fastDivResponds : Obligations.FastDivResponds := by
  intro s hs
  exact ⟨fun a m => ⟨decodeEncodeRoundTrip (.fastDiv32 a m), exec_of_running (.fastDiv32 a m) hs⟩,
    fun a m => ⟨decodeEncodeRoundTrip (.fastDiv64 a m), exec_of_running (.fastDiv64 a m) hs⟩⟩

/-- The magic constant survives its way onto the 2w-bit bus type (41_magic_constant.md R124). -/
theorem toNat_ofNat_gen (t : Track) {d : Nat} (hd : 1 < d) :
    (BitVec.ofNat (2 * t.width) (gen t.width d)).toNat = gen t.width d := by
  rw [BitVec.toNat_ofNat, Nat.mod_eq_of_lt (gen_lt t hd)]

/-- Settles O30: the magic constant fits on the X bus, and its multiply-high with the dividend is the quotient. -/
theorem quotientIsExact : Obligations.QuotientIsExact := by
  intro s hs
  refine ⟨fun a d hd => ?_, fun a d hd => ?_⟩
  · have hfits : (BitVec.ofNat 64 (gen 32 d.toNat)).toNat = gen 32 d.toNat := toNat_ofNat_gen .u32 hd
    rw [exec_of_running _ hs, effect, hfits, mulhi_gen_eq_div ⟨hd, d.isLt⟩ a.isLt]
    rfl
  · have hfits : (BitVec.ofNat 128 (gen 64 d.toNat)).toNat = gen 64 d.toNat := toNat_ofNat_gen .u64 hd
    rw [exec_of_running _ hs, effect, hfits, mulhi_gen_eq_div ⟨hd, d.isLt⟩ a.isLt]
    rfl

end Sys2Proof.Machine
end

section
/-! PROOFS of the statements of 43_remainder.md: the remainder as one function of m, a and d (R163, R164, R166), the pairing
check (R167) and the requests (R161, R162, R165). -/

open Sys2Proof

namespace Sys2Proof.Machine

/-! ## The upper part of the low product times d -/

/-- For every m, a and d: cutting m * a to its low 2w bits before the multiplication by d costs multiples of d alone. -/
theorem mulhi_lowprod (w m a d : Nat) : mulhi w (lowprod w m a) d = m * a * d / 2 ^ (2 * w) % d := by
  rw [mulhi, lowprod, ← Nat.mul_mod_mul_right, Nat.mod_mul_right_div_self]

/-- The overshoot of the magic constant, taken a times, stays below 2^(2w): what is above is the dividend. -/
theorem gen_mul_mul_div_eq {w d a : Nat} (hd : ValidDivisor w d) (ha : a < 2 ^ w) :
    gen w d * a * d / 2 ^ (2 * w) = a := by
  obtain ⟨e, hlt, hgen⟩ := exists_gen_mul_eq (Nat.lt_of_succ_lt hd.1) w
  have hsmall : e * a < 2 ^ (2 * w) := mul_lt_two_pow_two_mul (hlt.trans hd.2) ha
  rw [Nat.mul_right_comm, hgen, Nat.add_mul, Nat.mul_add_div (Nat.two_pow_pos _), Nat.div_eq_of_lt hsmall, Nat.add_zero]

/-- The exactness of the remainder (43_remainder.md R163). -/
theorem mulhi_lowprod_gen_eq_mod {w d a : Nat} (hd : ValidDivisor w d) (ha : a < 2 ^ w) :
    mulhi w (lowprod w (gen w d) a) d = a % d := by
  rw [mulhi_lowprod, gen_mul_mul_div_eq hd ha]

/-- Settles O21: quotient and remainder are the integer ones, and the dividend has w bits. -/
theorem reconstructionLaw : Obligations.ReconstructionLaw := by
  rintro t d a m ⟨hd, rfl⟩ ha
  have hexact : mulhi t.width (gen t.width d) a * d + mulhi t.width (lowprod t.width (gen t.width d) a) d = a := by
    rw [mulhi_gen_eq_div hd ha, mulhi_lowprod_gen_eq_mod hd ha, Nat.div_add_mod']
  exact ⟨hexact, hexact.trans_le (Nat.le_pred_of_lt ha)⟩

/-! ## The pairing check -/

/-- Different valid divisors have different magic constants (41_magic_constant.md R124). -/
theorem gen_injective {w d e : Nat} (hd : ValidDivisor w d) (he : ValidDivisor w e) (h : gen w d = gen w e) : d = e := by
  rcases Nat.lt_trichotomy d e with hlt | heq | hgt
  · exact absurd h (gen_strictAnti hd he hlt).ne'
  · exact heq
  · exact absurd h (gen_strictAnti he hd hgt).ne

/-- Settles O22: a divisor that passes is valid, and the generator is injective on valid divisors. -/
theorem pairingCheckAcceptsOnlyItsDivisor : Obligations.PairingCheckAcceptsOnlyItsDivisor := by
  intro t d e he hd
  constructor
  · intro hpasses
    obtain ⟨hone, hgen⟩ := pairingPasses_iff.mp hpasses
    exact gen_injective ⟨hone, hd⟩ he hgen
  · rintro rfl
    exact Paired.passes ⟨he, rfl⟩

/-! ## The requests -/

/-- Every response of the remainder unit is the datapath value, on either build (43_remainder.md R165). -/
theorem State.remainder_bus_eq {s : State} {t : Track} {a m : Nat} {d : BitVec 64} {r : BitVec 128}
    (h : (s.remainder t a m d).bus = some r) : r = BitVec.ofNat 128 (mulhi t.width (lowprod t.width m a) d.toNat) := by
  unfold State.remainder at h
  split at h <;> cases h
  rfl

/-- The bound of R166: the response is a value modulo d. -/
theorem State.remainder_bus_bounded {s : State} {t : Track} {a m : Nat} {d : BitVec 64} {r : BitVec 128}
    (h : (s.remainder t a m d).bus = some r) :
    (1 ≤ d.toNat → r.toNat < d.toNat) ∧ (d.toNat = 0 → r = 0#128) := by
  obtain rfl := State.remainder_bus_eq h
  refine ⟨fun hd => ?_, fun hd => ?_⟩
  · have hlt : mulhi t.width (lowprod t.width m a) d.toNat < d.toNat := by
      rw [mulhi_lowprod]
      exact Nat.mod_lt _ hd
    exact State.respond_bus_lt hlt (s.respond_bus _)
  · simp [hd, mulhi]

/-- On a build without the check every request is answered, for every m and d (43_remainder.md R165). -/
theorem State.remainder_responds {s : State} (hc : s.pairingCheck = false) (t : Track) (a m : Nat) (d : BitVec 64) :
    ∃ r, s.remainder t a m d = { s with bus := some r } :=
  ⟨_, State.remainder_of_passes (.inl hc)⟩

/-- Settles O27: a build without the check responds, and every response is a value modulo d. -/
theorem remainderIsBounded : Obligations.RemainderIsBounded := by
  intro s hs
  refine ⟨fun a m d => ⟨fun hc => ?_, fun t r hexec hbus => ?_⟩, fun a m d => ⟨fun hc => ?_, fun t r hexec hbus => ?_⟩⟩
  · rw [exec_of_running _ hs]
    exact (State.remainder_responds hc .u32 _ _ _).imp fun _ => congrArg _
  · obtain ⟨-, rfl⟩ := exec_next hexec
    exact toNat_setWidth_divisor d ▸ State.remainder_bus_bounded hbus
  · rw [exec_of_running _ hs]
    exact (State.remainder_responds hc .u64 _ _ _).imp fun _ => congrArg _
  · obtain ⟨-, rfl⟩ := exec_next hexec
    exact State.remainder_bus_bounded hbus

/-- A valid divisor and its magic constant pass the check wherever it is built (43_remainder.md R163, R167). -/
theorem State.remainder_gen {t : Track} {d : BitVec 64} {n a : Nat} (hn : d.toNat = n) (hd : ValidDivisor t.width n)
    (ha : a < 2 ^ t.width) (s : State) : s.remainder t a (gen t.width n) d = s.respond (a % n) := by
  subst hn
  rw [State.remainder_of_passes (.inr (Paired.passes ⟨hd, rfl⟩)), mulhi_lowprod_gen_eq_mod hd ha]

/-- Settles O31: the magic constant fits on the X bus and passes the check, and the datapath value is the remainder. -/
theorem remainderIsExact : Obligations.RemainderIsExact := by
  intro s hs
  refine ⟨fun a d hd => ?_, fun a d hd => ?_⟩
  · have hfits : (BitVec.ofNat 64 (gen 32 d.toNat)).toNat = gen 32 d.toNat := toNat_ofNat_gen .u32 hd
    rw [exec_of_running _ hs, effect, hfits]
    exact congrArg _ (State.remainder_gen (t := .u32) (toNat_setWidth_divisor d) ⟨hd, d.isLt⟩ a.isLt s)
  · have hfits : (BitVec.ofNat 128 (gen 64 d.toNat)).toNat = gen 64 d.toNat := toNat_ofNat_gen .u64 hd
    rw [exec_of_running _ hs, effect, hfits]
    exact congrArg _ (State.remainder_gen (t := .u64) rfl ⟨hd, d.isLt⟩ a.isLt s)

/-- The check in the words of R167: above 1, and m is generated from d. -/
theorem pairingPasses_iff_eq_gen {w m d : Nat} : pairingFails w m d = false ↔ 1 < d ∧ m = gen w d :=
  pairingPasses_iff.trans (and_congr_right fun _ => eq_comm)

theorem pairingFails_iff_not_eq_gen {w m d : Nat} : pairingFails w m d = true ↔ ¬ (1 < d ∧ m = gen w d) := by
  rw [← pairingPasses_iff_eq_gen, Bool.not_eq_false]

/-- The 32-bit remainder unit on its own operand (43_remainder.md R161). -/
theorem remainder_u32_of_passes {s : State} {m : Nat} {d : BitVec 32}
    (h : s.pairingCheck = false ∨ pairingFails 32 m d.toNat = false) (a : Nat) :
    s.remainder .u32 a m (d.setWidth 64) = s.respond (mulhi 32 (lowprod 32 m a) d.toNat) := by
  rw [State.remainder_of_passes (toNat_setWidth_divisor d ▸ h), toNat_setWidth_divisor]
  rfl

theorem remainder_u32_of_fails {s : State} {m : Nat} {d : BitVec 32} (hc : s.pairingCheck = true)
    (h : pairingFails 32 m d.toNat = true) (a : Nat) :
    s.remainder .u32 a m (d.setWidth 64) = s.raiseFault .pairingMismatch .u32 (BitVec.ofNat 64 d.toNat) := by
  rw [State.remainder_of_fails hc (toNat_setWidth_divisor d ▸ h), ← BitVec.ofNat_toNat]

/-- Settles O26: the buses hold the encoding of the request, and the check, where it is built, separates the two answers. -/
theorem fastModRespondsOrFaults : Obligations.FastModRespondsOrFaults := by
  refine ⟨rfl, fun s hs => ⟨fun a m d => ⟨decodeEncodeRoundTrip (.fastMod32 a m d), fun h => ?_, fun hc h => ?_⟩,
    fun a m d => ⟨decodeEncodeRoundTrip (.fastMod64 a m d), fun h => ?_, fun hc h => ?_⟩⟩⟩
  · rw [exec_of_running _ hs, effect, remainder_u32_of_passes (h.imp id pairingPasses_iff_eq_gen.mpr)]
    rfl
  · rw [exec_of_running _ hs, effect, remainder_u32_of_fails hc (pairingFails_iff_not_eq_gen.mpr h)]
    rfl
  · rw [exec_of_running _ hs, effect, State.remainder_of_passes (h.imp id pairingPasses_iff_eq_gen.mpr)]
    rfl
  · rw [exec_of_running _ hs, effect, State.remainder_of_fails hc (pairingFails_iff_not_eq_gen.mpr h)]
    rfl

end Sys2Proof.Machine
end

section
/-! PROOFS of the statements of 44_divisibility.md: the comparison as a test of the remainder (R183), the fresh draw (R182)
and the requests (R180, R181). -/

open Sys2Proof

namespace Sys2Proof.Machine

/-! ## The comparison with m - 1 -/

/-- `m - 1` is the largest number whose product with d stays below 2^(2w): a low product at most `m - 1` is one whose
multiply-high with d is 0, and this is the remainder (44_divisibility.md R183, by 43_remainder.md R163). -/
theorem lowprod_gen_le_pred_iff_dvd {w d n : Nat} (hd : ValidDivisor w d) (hn : n < 2 ^ w) :
    lowprod w (gen w d) n ≤ gen w d - 1 ↔ d ∣ n := by
  have hpos : 0 < d := Nat.lt_of_succ_lt hd.1
  calc lowprod w (gen w d) n ≤ gen w d - 1
      ↔ lowprod w (gen w d) n * d ≤ 2 ^ (2 * w) - 1 := Nat.le_div_iff_mul_le hpos
    _ ↔ lowprod w (gen w d) n * d < 2 ^ (2 * w) := Nat.le_sub_one_iff_lt (Nat.two_pow_pos _)
    _ ↔ mulhi w (lowprod w (gen w d) n) d = 0 := (Nat.div_eq_zero_iff_lt (Nat.two_pow_pos _)).symm
    _ ↔ d ∣ n := by rw [mulhi_lowprod_gen_eq_mod hd hn, Nat.dvd_iff_mod_eq_zero]

/-! ## The comparison as a response -/

/-- A boolean response, by the proposition it decides. -/
theorem boolBus_eq_ite {t : Bool} {p : Prop} [Decidable p] (h : t = true ↔ p) :
    boolBus t = if p then 1#128 else 0#128 :=
  if_congr h rfl rfl

theorem State.testMultiple_of_ne_zero {m : Nat} (hm : m ≠ 0) (s : State) (w n : Nat) :
    s.testMultiple w n m = { s with bus := some (if lowprod w m n ≤ m - 1 then 1#128 else 0#128) } := by
  rw [State.testMultiple, if_neg hm, State.respondBool, boolBus_eq_ite divides_iff]

theorem State.testMultiple_gen {w d n : Nat} (hd : ValidDivisor w d) (hn : n < 2 ^ w) (s : State) :
    s.testMultiple w n (gen w d) = { s with bus := some (if d ∣ n then 1#128 else 0#128) } := by
  have hgen : gen w d ≠ 0 := Nat.succ_ne_zero _
  simp only [State.testMultiple_of_ne_zero hgen, lowprod_gen_le_pred_iff_dvd hd hn]

/-! ## The requests -/

/-- Settles O32: the magic constant fits on the X bus, and its comparison is the divisibility. -/
theorem divisibilityIsExact : Obligations.DivisibilityIsExact := by
  intro s hs
  refine ⟨fun n d hd => ?_, fun n d hd => ?_⟩
  · have hfits : (BitVec.ofNat 64 (gen 32 d.toNat)).toNat = gen 32 d.toNat := toNat_ofNat_gen .u32 hd
    rw [exec_of_running _ hs, effect, hfits, State.testMultiple_gen ⟨hd, d.isLt⟩ n.isLt]
  · have hfits : (BitVec.ofNat 128 (gen 64 d.toNat)).toNat = gen 64 d.toNat := toNat_ofNat_gen .u64 hd
    rw [exec_of_running _ hs, effect, hfits, State.testMultiple_gen ⟨hd, d.isLt⟩ n.isLt]

/-- The one request that draws answers the draw (44_divisibility.md R182). -/
theorem exec_of_not_noDraw {i : Instr} (hi : ¬ NoDraw i) {s : State} (hs : s.fault = none) :
    exec i s = .next s.respondDraw :=
  effect_of_not_noDraw hi s ▸ exec_of_running i hs

/-- Settles O29: a request with m = 0 is the one that draws. -/
theorem zeroConstantDraws : Obligations.ZeroConstantDraws := by
  intro s hs
  exact ⟨fun n => exec_of_not_noDraw (i := .isMultipleOf32 n 0#64) (not_not_intro rfl) hs,
    fun n => exec_of_not_noDraw (i := .isMultipleOf64 n 0#128) (not_not_intro rfl) hs⟩

/-- Settles O28: the buses hold the encoding of the request, and m = 0 separates the comparison from the draw. -/
theorem isMultipleOfResponds : Obligations.IsMultipleOfResponds := by
  intro s hs
  obtain ⟨hdraw32, hdraw64⟩ := zeroConstantDraws s hs
  refine ⟨fun n m => ⟨decodeEncodeRoundTrip (.isMultipleOf32 n m), fun hm => ?_, _, _, hdraw32 n⟩,
    fun n m => ⟨decodeEncodeRoundTrip (.isMultipleOf64 n m), fun hm => ?_, _, _, hdraw64 n⟩⟩
  · rw [exec_of_running _ hs, effect, State.testMultiple_of_ne_zero (BitVec.toNat_ne.mp hm)]
    rfl
  · rw [exec_of_running _ hs, effect, State.testMultiple_of_ne_zero (BitVec.toNat_ne.mp hm)]
    rfl

end Sys2Proof.Machine
end

section
/-! PROOFS of the statements of 60_exceptions.md: the causes of a fault and its record (R200), fault entry (R201), the stopped
block (R202), and that admitted programs are not refused later (R206). -/

open Sys2Proof

namespace Sys2Proof.Machine

/-! ## The causes of a fault -/

/-- The divisors the generator refuses are 0 and 1, at any width (41_magic_constant.md R121). -/
theorem eq_zero_or_one_of_toNat_le_one {n : Nat} {d : BitVec n} (h : d.toNat ≤ 1) : d = 0#n ∨ d = 1#n := by
  have hself : d = BitVec.ofNat n d.toNat := by simp
  rcases Nat.le_one_iff_eq_zero_or_eq_one.mp h with hzero | hone
  · exact .inl (hzero ▸ hself)
  · exact .inr (hone ▸ hself)

/-- The generator faults for d <= 1 alone, with that divisor in the record. -/
theorem State.generate_fault_some {s : State} (hs : s.fault = none) {t : Track} {d : BitVec 64} {r : FaultRecord}
    (h : (s.generate t d).fault = some r) : d.toNat ≤ 1 ∧ r = ⟨.divisorLe1, t, d⟩ := by
  rcases Nat.lt_or_ge 1 d.toNat with hd | hd
  · simp [State.generate_of_one_lt hd, hs] at h
  · rw [State.generate_of_le_one hd] at h
    exact ⟨hd, (Option.some_inj.mp h).symm⟩

/-- The remainder unit faults only where the pairing check is built and fails (43_remainder.md R167). -/
theorem State.remainder_fault_some {s : State} (hs : s.fault = none) {t : Track} {a m : Nat} {d : BitVec 64}
    {r : FaultRecord} (h : (s.remainder t a m d).fault = some r) :
    s.pairingCheck = true ∧ (d.toNat ≤ 1 ∨ gen t.width d.toNat ≠ m) ∧ r = ⟨.pairingMismatch, t, d⟩ := by
  by_cases hpass : s.pairingCheck = false ∨ pairingFails t.width m d.toNat = false
  · simp [State.remainder_of_passes hpass, hs] at h
  · obtain ⟨hcheck, hfails⟩ : s.pairingCheck = true ∧ pairingFails t.width m d.toNat = true := by simpa using hpass
    rw [State.remainder_of_fails hcheck hfails] at h
    exact ⟨hcheck, pairingFails_iff.mp hfails, (Option.some_inj.mp h).symm⟩

/-- Settles O36: of the units only the generator and the remainder unit raise a fault, each by its one check. -/
theorem onlyTwoFaultCauses : Obligations.OnlyTwoFaultCauses := by
  refine ⟨⟨rfl, rfl⟩, fun s hs => by simp [State.faultStatus, State.faultInfo, hs], fun i s t r hexec hr => ?_⟩
  obtain ⟨hs, rfl⟩ := exec_next hexec
  cases i with
  | precompute32 d =>
    obtain ⟨hd, rfl⟩ := State.generate_fault_some hs (t := .u32) (d := d.setWidth 64) hr
    rw [toNat_setWidth_divisor] at hd
    exact .inl ⟨d, rfl, eq_zero_or_one_of_toNat_le_one hd, rfl⟩
  | precompute64 d =>
    obtain ⟨hd, rfl⟩ := State.generate_fault_some hs (t := .u64) hr
    exact .inr (.inl ⟨d, rfl, eq_zero_or_one_of_toNat_le_one hd, rfl⟩)
  | fastMod32 a m d =>
    obtain ⟨hcheck, hpair, rfl⟩ := State.remainder_fault_some hs (t := .u32) (d := d.setWidth 64) hr
    rw [toNat_setWidth_divisor] at hpair
    exact .inr (.inr (.inl ⟨a, m, d, rfl, hcheck, hpair, rfl⟩))
  | fastMod64 a m d =>
    obtain ⟨hcheck, hpair, rfl⟩ := State.remainder_fault_some hs (t := .u64) hr
    exact .inr (.inr (.inr ⟨a, m, d, rfl, hcheck, hpair, rfl⟩))
  | isMultipleOf32 n m => cases ((s.testMultiple_fault _ _ _).trans hs).symm.trans hr
  | isMultipleOf64 n m => cases ((s.testMultiple_fault _ _ _).trans hs).symm.trans hr
  | _ => cases hs.symm.trans hr

/-! ## Fault entry -/

/-- The status word as the fault entry writes it: CODE from bit 8 up, W in bit 1, VALID in bit 0 (60_exceptions.md R201). -/
theorem State.faultStatus_of_fault {s : State} {r : FaultRecord} (h : s.fault = some r) :
    s.faultStatus = (r.code.number.setWidth 16 <<< 8) ||| ((r.track.bit.setWidth 16) <<< 1) ||| 1#16 := by
  obtain ⟨code, track, divisor⟩ := r
  simp only [State.faultStatus, h]
  cases code <;> cases track <;> decide

/-- The record a request leaves names its track and the zero-extended d operand on its bus. -/
theorem exec_fault_operands {i : Instr} {s u : State} {r : FaultRecord} (hexec : exec i s = .next u)
    (hr : u.fault = some r) :
    r.track = i.op.track ∧ r.divisor = (if i.op.func = .precompute then (encode i).y else (encode i).z) := by
  obtain ⟨-, -, hcauses⟩ := onlyTwoFaultCauses
  rcases hcauses i s u r hexec hr with ⟨d, rfl, -, rfl⟩ | ⟨d, rfl, -, rfl⟩ | ⟨a, m, d, rfl, -, -, rfl⟩
      | ⟨a, m, d, rfl, -, -, rfl⟩ <;>
    exact ⟨rfl, rfl⟩

/-- Settles O42: of the two answers of a request, and of the two outcomes of a step, a recorded fault leaves the second. -/
theorem faultEntryWritesOnlyTheRecord : Obligations.FaultEntryWritesOnlyTheRecord := by
  refine ⟨fun i s u r hexec hr => ⟨?_, exec_fault_operands hexec hr⟩, fun s t r hstep hr => ?_⟩
  · obtain ⟨hs, rfl⟩ := exec_next hexec
    rcases effect_answers_or_faults i s with ⟨v, n, h⟩ | ⟨e, h⟩
    · simp [h, hs] at hr
    · obtain rfl : e = r := by simpa [h] using hr
      exact h
  · obtain ⟨c, k, l, i, hserves, g, p, ⟨v, n, -, rfl⟩ | ⟨e, -, rfl⟩⟩ := step_delivers_or_faults hstep
    · cases hserves.running.symm.trans hr
    · obtain rfl := Option.some_inj.mp hr
      exact ⟨hserves.running, rfl, rfl, rfl, rfl, State.faultStatus_of_fault rfl, rfl⟩

/-! ## The stopped block -/

theorem step_of_stopped {s : State} {r : FaultRecord} (hadm : s.refusal = none) (h : s.fault = some r) :
    step s = .fault .blockStopped := by
  simp only [step, State.advance, hadm, h]

/-- Settles O43: every request and every step asks first whether a fault is recorded. -/
theorem faultStopsTheBlock : Obligations.FaultStopsTheBlock := by
  intro s r h
  have hfinal : s.final = false := by simp [State.final, State.stopped, h]
  refine ⟨fun i => by rw [exec_eq, State.whenRunning_of_stopped h], fun t hstep => ?_,
    fun hadm => step_of_stopped hadm h, hfinal, by simp [State.observe, hfinal]⟩
  obtain ⟨-, hrun, -⟩ := step_next hstep
  cases hrun.symm.trans h

/-! ## An admitted line spells a request -/

/-- An operand admitted on the forecasts has a value that fits, whatever the variables hold that agree with them
(30_encoding.md R77). -/
theorem VarsAgree.argValue {env : Forecasts} {vars : Vars} (h : VarsAgree env vars) {width : Nat} {a : Arg}
    (ha : argAdmitted env width a = true) : ∃ n < 2 ^ width, argValue vars width a = .ok n := by
  cases a with
  | lit n =>
    have hn := argAdmitted_lit_iff.mp ha
    exact ⟨n, hn, by simp [Machine.argValue, hn]⟩
  | var name =>
    cases hf : getName name env with
    | none => exact absurd ha (not_argAdmitted_of_unassigned hf width)
    | some f =>
      obtain ⟨v, hv, hkind, hvalue⟩ := h.2 name f hf
      have hfits : v.toNat < 2 ^ width := by
        cases hu : f.value with
        | some u => exact hvalue u hu ▸ (argAdmitted_var_iff hf hu).mp ha
        | none =>
          have hwidth : f.kind.width ≤ width := by simpa [argAdmitted, hf, hu] using ha
          calc v.toNat < 2 ^ v.kind.width := v.toNat_lt
            _ ≤ 2 ^ width := Nat.pow_le_pow_right (by decide) (hkind ▸ hwidth)
      exact ⟨v.toNat, hfits, by simp [Machine.argValue, hv, hfits]⟩

/-- An operand that fits what the operation reads of its bus leaves the unread bits 0. -/
theorem putOnBus_unreadBitsZero {r : Request} {op : Op} (h : r.unreadBitsZero op = true) {b : Bus} {n : Nat}
    (hn : n < 2 ^ op.readWidth b) : (putOnBus r b n).unreadBitsZero op = true := by
  rw [unreadBitsZero_iff] at h ⊢
  obtain ⟨hx, hy, hz⟩ := h
  have hmod : ∀ k, n % k < 2 ^ op.readWidth b := fun k => Nat.lt_of_le_of_lt (Nat.mod_le n k) hn
  cases b with
  | x => exact ⟨by simpa only [putOnBus, BitVec.toNat_ofNat] using hmod _, hy, hz⟩
  | y => exact ⟨hx, by simpa only [putOnBus, BitVec.toNat_ofNat] using hmod _, hz⟩
  | z => exact ⟨hx, hy, by simpa only [putOnBus, BitVec.toNat_ofNat] using hmod _⟩

/-- Admitted operands fill their buses, and nothing of the buses beyond what the operation reads. -/
theorem VarsAgree.fillBuses {env : Forecasts} {vars : Vars} (h : VarsAgree env vars) {op : Op} {bs : List Bus}
    (hbs : ∀ b ∈ bs, op.readWidth b = b.width op.track) {as : List Arg}
    (has : argsAdmitted env op.track bs as = true) {r : Request} (hr : r.unreadBitsZero op = true) :
    ∃ q, fillBuses vars op.track bs as r = .ok q ∧ q.unreadBitsZero op = true := by
  induction bs generalizing as r with
  | nil =>
    cases as with
    | nil => exact ⟨r, rfl, hr⟩
    | cons a as => cases has
  | cons b bs ih =>
    cases as with
    | nil => cases has
    | cons a as =>
      obtain ⟨hb, htail⟩ := List.forall_mem_cons.mp hbs
      obtain ⟨ha, hrest⟩ := Bool.and_eq_true_iff.mp has
      obtain ⟨n, hn, hvalue⟩ := h.argValue ha
      simp only [Machine.fillBuses, hvalue]
      exact ih htail hrest (putOnBus_unreadBitsZero hr (hb ▸ hn))

theorem readWidth_of_mem_slots {op : Op} {b : Bus} (h : b ∈ op.func.slots) : op.readWidth b = b.width op.track := by
  simp [Op.readWidth, h]

theorem unreadBitsZero_of_zero_buses (op : Op) : (⟨op.command, 0#128, 0#64, 0#64⟩ : Request).unreadBitsZero op = true :=
  unreadBitsZero_iff.mpr ⟨Nat.two_pow_pos _, Nat.two_pow_pos _, Nat.two_pow_pos _⟩

/-- An admitted line of operands is one the grammar can spell, with every operand admitted. -/
theorem argsAdmitted_of_lineRefusal_none {env : Forecasts} {dest : Option Ident} {op : Op} {args : List Arg}
    (h : lineRefusal env ⟨dest, .call op args⟩ = none) : argsAdmitted env op.track op.func.slots args = true := by
  cases hok : (⟨dest, .call op args⟩ : Line).ok with
  | true => simpa [lineRefusal_call hok] using h
  | false => simp [lineRefusal, hok] at h

/-- A line admitted on the forecasts spells a request, whatever the variables hold that agree with them. -/
theorem VarsAgree.lineInstr {env : Forecasts} {vars : Vars} (h : VarsAgree env vars) {l : Line}
    (hl : lineRefusal env l = none) : ∃ i, lineInstr vars l = .ok i := by
  obtain ⟨dest, body⟩ := l
  cases body with
  | raw r =>
    cases hr : decode r with
    | ok i => exact ⟨i, by simp [Machine.lineInstr, decodeOrRefuse, hr]⟩
    | error e => exact absurd hl (lineRefusal_raw_ne_none hr dest env)
  | call op args =>
    obtain ⟨q, hq, hzero⟩ := h.fillBuses (fun b => readWidth_of_mem_slots) (argsAdmitted_of_lineRefusal_none hl)
      (unreadBitsZero_of_zero_buses op)
    have hop : decodeCommand q.cmd = some op := fillBuses_cmd hq ▸ decodeCommand_command op
    exact ⟨q.operandsOf op, by simp only [Machine.lineInstr, hq, decodeOrRefuse, decode_of_op hop hzero]⟩

/-! ## Admitted programs go on -/

theorem State.isReady_of_caller {s : State} {c : Nat} {k : Caller} (h : s.callers[c]? = some k) : s.isReady c = k.ready := by
  simp only [State.isReady, h]

/-- Where no caller can be served, every caller has performed its whole list (70_reset_and_hazards.md R250). -/
theorem State.finished_of_choose_none {s : State} (h : s.choose = none) : s.finished = true := by
  refine List.all_eq_true.mpr fun k hk => ?_
  obtain ⟨c, hc⟩ := List.mem_iff_getElem?.mp hk
  have hready : c ∉ s.readyCallers := by simp [State.choose_eq_none.mp h]
  rw [State.mem_readyCallers, State.isReady_of_caller hc] at hready
  simpa using hready

/-- In a state of the invariant, the next line of every caller spells a request: it was admitted on the forecasts after the
lines performed, and the variables agree with them. -/
theorem State.Inv.lineInstr {s : State} (h : s.Inv) {c : Nat} {k : Caller} {l : Line} (hk : s.callers[c]? = some k)
    (hl : k.prog[k.pos]? = some l) : ∃ i, lineInstr k.vars l = .ok i := by
  obtain ⟨-, -, hadm, hagree⟩ := h
  have hmem : k ∈ s.callers := List.mem_of_getElem? hk
  obtain ⟨-, hvars⟩ := hagree k hmem
  have hline : lineRefusal (forecastProgram s.pairingCheck [] (k.prog.take k.pos)) l = none :=
    programRefusal_eq_none_iff.mp (callersRefusal_eq_none.mp hadm k hmem) k.pos l hl
  exact hvars.lineInstr hline

/-- In a running state of the invariant, the caller served has its request performed. -/
theorem State.Inv.step_of_choose {s u : State} {c : Nat} (h : s.Inv) (hrun : s.fault = none)
    (hchoose : s.choose = some (c, u)) : ∃ t, step s = .next t := by
  have ⟨_, _, hadm, _⟩ := h
  obtain ⟨hready, g, p, rfl⟩ := State.choose_some hchoose
  obtain ⟨k, l, hk, hl, hnext⟩ := State.nextLine_of_isReady (State.mem_readyCallers.mp hready)
  obtain ⟨i, hi⟩ := h.lineInstr hk hl
  exact ⟨_, stepPerformsTheLine s _ _ c k l i hadm hrun hchoose hnext hi (exec_of_running i hrun)⟩

/-- Settles O52, by whether a fault is recorded and, where none is, whether a caller has a request ready. -/
theorem admittedLaunchNeverRefused : Obligations.AdmittedLaunchNeverRefused := by
  intro s hinv
  have ⟨_, _, hadm, _⟩ := hinv
  cases hrun : s.fault with
  | some r => exact .inr (.inl ⟨step_of_stopped hadm hrun, by simp [State.stopped, hrun]⟩)
  | none =>
    cases hchoose : s.choose with
    | some served => exact .inl (hinv.step_of_choose hrun hchoose)
    | none =>
      have hstep : step s = .fault .launchFinal := by simp only [step, State.advance, hadm, hrun, hchoose]
      have hfinal : s.final = true := by simp [State.final, State.stopped, State.finished_of_choose_none hchoose, hrun]
      exact .inr (.inr ⟨hstep, hfinal⟩)

end Sys2Proof.Machine
end

section
/-! PROOFS of the statements of 70_reset_and_hazards.md: reset (R240) and the start of a launch (R242) with their invariant,
the end of a launch (R250) and of every run (R249). -/

open Sys2Proof

namespace Sys2Proof.Machine

/-! ## Reset and the start of a launch -/

/-- Settles O14, by evaluation of the reset state. -/
theorem resetClearsBlockState : Obligations.ResetClearsBlockState :=
  ⟨rfl, rfl, rfl, rfl⟩

/-- A launch begins only where a list is given and every list is admitted, and then with the reset state and the lists
loaded. -/
theorem launch_next {check : Bool} {progs : List Program} {s : State} (h : launch check progs = .next s) :
    progs ≠ [] ∧ (∀ p ∈ progs, programRefusal check [] p = none)
      ∧ s = { State.reset with callers := progs.map Caller.start, pairingCheck := check } := by
  have hadm := launch_next_admitted h
  have hne : progs ≠ [] := by
    rintro rfl
    cases h
  rw [launch_of_admitted hne hadm] at h
  cases h
  exact ⟨hne, hadm, rfl⟩

/-- Settles O15: the fields are read off the one state a launch begins with. -/
theorem launchStartsFromReset : Obligations.LaunchStartsFromReset := by
  intro check progs s h
  obtain ⟨hne, -, rfl⟩ := launch_next h
  have hcount : 1 ≤ (progs.map Caller.start).length := by simpa [Nat.one_le_iff_ne_zero] using hne
  have hprogs : (progs.map Caller.start).map Caller.prog = progs := by simp [Function.comp_def, Caller.start]
  have hstart : ∀ k ∈ progs.map Caller.start, k.pos = 0 ∧ k.vars = [] :=
    List.forall_mem_map.mpr fun p _ => ⟨rfl, rfl⟩
  exact ⟨rfl, rfl, rfl, rfl, hcount, hprogs, hstart⟩

/-! ## The invariant where a launch begins -/

/-- No variable forecast, none written. -/
theorem varsAgree_nil : VarsAgree [] [] :=
  ⟨fun _ _ => rfl, nofun⟩

/-- A caller that has performed nothing agrees with its list. -/
theorem Caller.start_agrees (check : Bool) (p : Program) : (Caller.start p).Agrees check :=
  ⟨Nat.zero_le _, varsAgree_nil⟩

/-- The reset state with admitted lists loaded, one for each caller, meets the invariant. -/
theorem inv_of_admitted {check : Bool} {progs : List Program} (h : ∀ p ∈ progs, programRefusal check [] p = none) :
    State.Inv { State.reset with callers := progs.map Caller.start, pairingCheck := check } := by
  have hadm : callersRefusal check (progs.map Caller.start) = none :=
    callersRefusal_eq_none.mpr (List.forall_mem_map.mpr h)
  exact ⟨rfl, State.faultOk_of_running rfl, hadm, List.forall_mem_map.mpr fun p _ => Caller.start_agrees check p⟩

/-- Settles O49: the reset state is the one with no list loaded. -/
theorem resetSatisfiesInvariant : Obligations.ResetSatisfiesInvariant :=
  inv_of_admitted (check := false) (progs := []) nofun

/-- Settles O50: a launch begins with admitted lists alone. -/
theorem launchSatisfiesInvariant : Obligations.LaunchSatisfiesInvariant := by
  intro check progs s h
  obtain ⟨-, hadm, rfl⟩ := launch_next h
  exact inv_of_admitted hadm

/-! ## The end of a launch -/

theorem State.finished_iff {s : State} : s.finished = true ↔ ∀ k ∈ s.callers, k.prog.length ≤ k.pos := by
  simp [State.finished, Caller.ready]

theorem State.final_iff {s : State} :
    s.final = true ↔ (∀ k ∈ s.callers, k.prog.length ≤ k.pos) ∧ s.fault = none := by
  simp [State.final, State.stopped, State.finished_iff]

/-- No caller can be served exactly where every one has performed its whole list. -/
theorem State.choose_eq_none_iff {s : State} : s.choose = none ↔ ∀ k ∈ s.callers, k.prog.length ≤ k.pos := by
  refine ⟨fun h => State.finished_iff.mp (State.finished_of_choose_none h), fun h => ?_⟩
  refine State.choose_eq_none.mpr (List.eq_nil_iff_forall_not_mem.mpr fun c hc => ?_)
  obtain ⟨k, l, hk, hl, -⟩ := State.nextLine_of_isReady (State.mem_readyCallers.mp hc)
  have hleft : k.pos < k.prog.length := (List.getElem?_eq_some_iff.mp hl).1
  exact Nat.not_le.mpr hleft (h k (List.mem_of_getElem? hk))

/-- A running block performs the request of the caller chosen, or refuses its line: it does not stop there. -/
theorem State.performNext_ne_fault {s u : State} {c : Nat} (hrun : s.fault = none) (hchoose : s.choose = some (c, u))
    (f : Fault) : u.performNext c ≠ .fault f := by
  obtain ⟨hready, g, p, rfl⟩ := State.choose_some hchoose
  obtain ⟨k, l, -, -, hnext⟩ := State.nextLine_of_isReady (State.mem_readyCallers.mp hready)
  have hline : State.nextLine { s with grants := g, picks := p } c = some (k, l) := hnext
  cases hi : lineInstr k.vars l with
  | error e => simp [State.performNext, hline, hi]
  | ok i =>
    have hexec := exec_of_running (s := { s with grants := g, picks := p }) i hrun
    simp [State.performNext, hline, hi, hexec]

/-- A step of admitted programs says `launchFinal` exactly where a running block has no caller to serve (log 12). -/
theorem step_eq_launchFinal_iff {s : State} (hadm : s.refusal = none) :
    step s = .fault .launchFinal ↔ s.choose = none ∧ s.fault = none := by
  cases hrun : s.fault with
  | some r => simp [step_of_stopped hadm hrun]
  | none =>
    cases hchoose : s.choose with
    | none => simp [step, State.advance, hadm, hrun, hchoose]
    | some served =>
      simp [step, State.advance, hadm, hrun, hchoose, State.performNext_ne_fault hrun hchoose]

/-- Settles O44: the step says `launchFinal` where no caller of a running block can be served, which is what final means. -/
theorem finalLaunchHasNoStep : Obligations.FinalLaunchHasNoStep := by
  intro s
  refine ⟨State.final_iff, fun h => by simp [State.observe, h], fun h => by simp [State.observe, h], fun hadm => ?_⟩
  rw [step_eq_launchFinal_iff hadm, State.choose_eq_none_iff]

/-! ## The end of every run -/

/-- A block that has recorded a fault makes no further step (60_exceptions.md R202). -/
theorem run_length_of_stopped {s t : State} (hs : s.fault ≠ none) {n : Nat} (h : Sys2Proof.core.run n s = .next t) :
    n = 0 := by
  cases n with
  | zero => rfl
  | succ n =>
    obtain ⟨u, hstep, -⟩ := run_succ_next h
    obtain ⟨-, hrun, -⟩ := step_next hstep
    exact absurd hrun hs

/-- A run makes at most as many steps as requests are left where it begins: each step leaves one fewer, but a faulting one,
which is the last (70_reset_and_hazards.md R249). -/
theorem run_length_le_remaining {s t : State} {n : Nat} (h : Sys2Proof.core.run n s = .next t) : n ≤ s.remaining := by
  induction n generalizing s with
  | zero => exact Nat.zero_le _
  | succ n ih =>
    obtain ⟨u, hstep, hrest⟩ := run_succ_next h
    obtain ⟨responds, faults⟩ := stepPerformsOneRequest s u hstep
    by_cases hu : u.fault = none
    · calc n + 1 ≤ u.remaining + 1 := Nat.succ_le_succ (ih hrest)
        _ = s.remaining := responds hu
    · obtain ⟨-, hleft⟩ := faults hu
      exact run_length_of_stopped hu hrest ▸ hleft

/-- Settles O46: a run of one step more than requests are left would be too long. -/
theorem everyRunEnds : Obligations.EveryRunEnds := by
  intro s t h
  exact Nat.not_succ_le_self _ (run_length_le_remaining h)

end Sys2Proof.Machine
end
